-- ==== Sys2Proof/Word.lean ====
section
/-! DEFINITION. The bit vectors of the CORE, at the widths spec/10_state.md and spec/30_encoding.md R91 give them.
Every quantity is unsigned (spec/00_scope.md R8). -/

namespace Sys2Proof

/-- An 8-bit value: a general register, a timer, a byte of memory (R20, R28, R31). -/
abbrev Byte := BitVec 8

/-- A 16-bit instruction word (R90) or key bitmap (R33). -/
abbrev Word := BitVec 16

/-- A 12-bit address: `I`, `PC`, a call-stack slot, the field `nnn` (R24, R25, R29, R91). -/
abbrev Addr := BitVec 12

/-- The index of a general register: a 4-bit field, so an index above 15 cannot arise (R20, R268). -/
abbrev RegIdx := BitVec 4

/-- A 4-bit field of an instruction word (R91). -/
abbrev Nibble := BitVec 4

/-- The index of `VF`, the flag register (R22). -/
abbrev flagReg : RegIdx := 15#4

end Sys2Proof
end

