-- ==== Sys2Proof/Syntax.lean ====
section
/-! DEFINITION. The 34 instructions of spec/30_encoding.md R96, one constructor per row of spec/opcode_table.json, in the
table's order. An operand has exactly the width of its field (R91), so every value of `Instr` can be encoded. -/

namespace Sys2Proof

inductive Instr where
  /-- `00E0` CLS (R220) -/
  | cls
  /-- `00EE` RET (R150) -/
  | ret
  /-- `1nnn` JP nnn (R151) -/
  | jp (nnn : Addr)
  /-- `2nnn` CALL nnn (R152) -/
  | call (nnn : Addr)
  /-- `3xnn` SE Vx, nn (R153) -/
  | seImm (x : RegIdx) (nn : Byte)
  /-- `4xnn` SNE Vx, nn (R154) -/
  | sneImm (x : RegIdx) (nn : Byte)
  /-- `5xy0` SE Vx, Vy (R155) -/
  | seReg (x y : RegIdx)
  /-- `6xnn` LD Vx, nn (R171) -/
  | ldImm (x : RegIdx) (nn : Byte)
  /-- `7xnn` ADD Vx, nn (R172) -/
  | addImm (x : RegIdx) (nn : Byte)
  /-- `8xy0` LD Vx, Vy (R173) -/
  | ldReg (x y : RegIdx)
  /-- `8xy1` OR Vx, Vy (R174) -/
  | or (x y : RegIdx)
  /-- `8xy2` AND Vx, Vy (R175) -/
  | and (x y : RegIdx)
  /-- `8xy3` XOR Vx, Vy (R176) -/
  | xor (x y : RegIdx)
  /-- `8xy4` ADD Vx, Vy (R177) -/
  | addReg (x y : RegIdx)
  /-- `8xy5` SUB Vx, Vy (R178) -/
  | sub (x y : RegIdx)
  /-- `8xy6` SHR Vx (R179). The field `y` is decoded and not used; it is kept so that the word can be written again (log 22). -/
  | shr (x y : RegIdx)
  /-- `8xy7` SUBN Vx, Vy (R180) -/
  | subn (x y : RegIdx)
  /-- `8xyE` SHL Vx (R181). The field `y` is decoded and not used, as for `shr` (log 22). -/
  | shl (x y : RegIdx)
  /-- `9xy0` SNE Vx, Vy (R156) -/
  | sneReg (x y : RegIdx)
  /-- `Annn` LD I, nnn (R200) -/
  | ldI (nnn : Addr)
  /-- `Bnnn` JP V0, nnn (R157) -/
  | jpV0 (nnn : Addr)
  /-- `Cxnn` RND Vx, nn (R183) -/
  | rnd (x : RegIdx) (nn : Byte)
  /-- `Dxyn` DRW Vx, Vy, n (R221) -/
  | drw (x y : RegIdx) (n : Nibble)
  /-- `Ex9E` SKP Vx (R240) -/
  | skp (x : RegIdx)
  /-- `ExA1` SKNP Vx (R241) -/
  | sknp (x : RegIdx)
  /-- `Fx07` LD Vx, DT (R242) -/
  | ldVxDt (x : RegIdx)
  /-- `Fx0A` LD Vx, K (R244) -/
  | ldVxK (x : RegIdx)
  /-- `Fx15` LD DT, Vx (R245) -/
  | ldDtVx (x : RegIdx)
  /-- `Fx18` LD ST, Vx (R246) -/
  | ldStVx (x : RegIdx)
  /-- `Fx1E` ADD I, Vx (R201) -/
  | addI (x : RegIdx)
  /-- `Fx29` LD F, Vx (R202) -/
  | ldF (x : RegIdx)
  /-- `Fx33` LD B, Vx (R203) -/
  | ldB (x : RegIdx)
  /-- `Fx55` LD [I], Vx (R204) -/
  | ldMemVx (x : RegIdx)
  /-- `Fx65` LD Vx, [I] (R205) -/
  | ldVxMem (x : RegIdx)
deriving DecidableEq, Repr

end Sys2Proof
end

