-- ==== Sys2Proof/Decode.lean ====
section
/-! DEFINITION. Decoding and encoding of spec/30_encoding.md: field extraction (R91), dispatch (R94) with exact matching
(R95, R96), rejection by name (R97), big-endian bytes (R62), and the encoder (R92, R96). The mask and match table of R96
is written out apart from this, in WellFormed.lean. -/

namespace Sys2Proof

/-- Why some bytes are no instruction. -/
inductive DecodeError where
  /-- fewer than the two bytes every instruction has (R90) -/
  | tooShort
  /-- the word matches no row of R96 (R97) -/
  | invalidWord (w : Word)
deriving DecidableEq, Repr

/-- `op`, the top 4 bits (R91). -/
def fieldOp (w : Word) : Nibble := w.extractLsb' 12 4
/-- `x`, bits 11 to 8 (R91). -/
def fieldX (w : Word) : RegIdx := w.extractLsb' 8 4
/-- `y`, bits 7 to 4 (R91). -/
def fieldY (w : Word) : RegIdx := w.extractLsb' 4 4
/-- `n`, bits 3 to 0 (R91). -/
def fieldN (w : Word) : Nibble := w.extractLsb' 0 4
/-- `nn`, bits 7 to 0 (R91). -/
def fieldNN (w : Word) : Byte := w.extractLsb' 0 8
/-- `nnn`, bits 11 to 0 (R91). -/
def fieldNNN (w : Word) : Addr := w.extractLsb' 0 12

/-- The byte at the lower address is bits 15 to 8 (R62, R90). -/
def wordOfBytes (hi lo : Byte) : Word := hi ++ lo
/-- Bits 15 to 8: the byte that lies at the lower address (R62). -/
def hiByte (w : Word) : Byte := w.extractLsb' 8 8
/-- Bits 7 to 0: the byte that lies at the higher address (R62). -/
def loByte (w : Word) : Byte := w.extractLsb' 0 8

/-- Group 0x0, sub-dispatched on `nn`; the words must be exactly `00E0` or `00EE` (R95). -/
def decodeGroup0 (w : Word) : Except DecodeError Instr :=
  match w.toNat with
  | 0x00E0 => .ok .cls
  | 0x00EE => .ok .ret
  | _ => .error (.invalidWord w)

/-- Groups 0x5 and 0x9 require `n = 0` (R95). -/
def decodeIfN0 (w : Word) (i : Instr) : Except DecodeError Instr :=
  if fieldN w = 0 then .ok i else .error (.invalidWord w)

/-- Group 0x8, sub-dispatched on `n` (R94). -/
def decodeGroup8 (w : Word) : Except DecodeError Instr :=
  let x := fieldX w
  let y := fieldY w
  match (fieldN w).toNat with
  | 0x0 => .ok (.ldReg x y)
  | 0x1 => .ok (.or x y)
  | 0x2 => .ok (.and x y)
  | 0x3 => .ok (.xor x y)
  | 0x4 => .ok (.addReg x y)
  | 0x5 => .ok (.sub x y)
  | 0x6 => .ok (.shr x y)
  | 0x7 => .ok (.subn x y)
  | 0xE => .ok (.shl x y)
  | _ => .error (.invalidWord w)

/-- Group 0xE, sub-dispatched on `nn` (R94). -/
def decodeGroupE (w : Word) : Except DecodeError Instr :=
  match (fieldNN w).toNat with
  | 0x9E => .ok (.skp (fieldX w))
  | 0xA1 => .ok (.sknp (fieldX w))
  | _ => .error (.invalidWord w)

/-- Group 0xF, sub-dispatched on `nn` (R94). -/
def decodeGroupF (w : Word) : Except DecodeError Instr :=
  let x := fieldX w
  match (fieldNN w).toNat with
  | 0x07 => .ok (.ldVxDt x)
  | 0x0A => .ok (.ldVxK x)
  | 0x15 => .ok (.ldDtVx x)
  | 0x18 => .ok (.ldStVx x)
  | 0x1E => .ok (.addI x)
  | 0x29 => .ok (.ldF x)
  | 0x33 => .ok (.ldB x)
  | 0x55 => .ok (.ldMemVx x)
  | 0x65 => .ok (.ldVxMem x)
  | _ => .error (.invalidWord w)

/-- The instruction a word encodes, or the word's rejection by name (R94 to R97). -/
def decodeWord (w : Word) : Except DecodeError Instr :=
  match (fieldOp w).toNat with
  | 0x0 => decodeGroup0 w
  | 0x1 => .ok (.jp (fieldNNN w))
  | 0x2 => .ok (.call (fieldNNN w))
  | 0x3 => .ok (.seImm (fieldX w) (fieldNN w))
  | 0x4 => .ok (.sneImm (fieldX w) (fieldNN w))
  | 0x5 => decodeIfN0 w (.seReg (fieldX w) (fieldY w))
  | 0x6 => .ok (.ldImm (fieldX w) (fieldNN w))
  | 0x7 => .ok (.addImm (fieldX w) (fieldNN w))
  | 0x8 => decodeGroup8 w
  | 0x9 => decodeIfN0 w (.sneReg (fieldX w) (fieldY w))
  | 0xA => .ok (.ldI (fieldNNN w))
  | 0xB => .ok (.jpV0 (fieldNNN w))
  | 0xC => .ok (.rnd (fieldX w) (fieldNN w))
  | 0xD => .ok (.drw (fieldX w) (fieldY w) (fieldN w))
  | 0xE => decodeGroupE w
  | _ => decodeGroupF w

/-- Decoding of the bytes from an address on: the instruction and the bytes after it (R62, R90). -/
def decodeBytes : List Byte → Except DecodeError (Instr × List Byte)
  | hi :: lo :: rest => (decodeWord (wordOfBytes hi lo)).map fun i => (i, rest)
  | _ => .error .tooShort

/-! ### The encoder -/

/-- Format A (R92). -/
def encodeA (op : Nibble) (nnn : Addr) : Word := op ++ nnn
/-- Format XI (R92). -/
def encodeXI (op : Nibble) (x : RegIdx) (nn : Byte) : Word := op ++ x ++ nn
/-- Formats XY and XYN (R92): the last nibble is the minor opcode or the immediate `n`. -/
def encodeXYN (op : Nibble) (x y : RegIdx) (n : Nibble) : Word := op ++ x ++ y ++ n

/-- The word of an instruction (R92, R96). Format XM is format XI with the minor opcode in place of `nn`. -/
def encode : Instr → Word
  | .cls          => 0x00E0#16
  | .ret          => 0x00EE#16
  | .jp nnn       => encodeA 0x1 nnn
  | .call nnn     => encodeA 0x2 nnn
  | .seImm x nn   => encodeXI 0x3 x nn
  | .sneImm x nn  => encodeXI 0x4 x nn
  | .seReg x y    => encodeXYN 0x5 x y 0x0
  | .ldImm x nn   => encodeXI 0x6 x nn
  | .addImm x nn  => encodeXI 0x7 x nn
  | .ldReg x y    => encodeXYN 0x8 x y 0x0
  | .or x y       => encodeXYN 0x8 x y 0x1
  | .and x y      => encodeXYN 0x8 x y 0x2
  | .xor x y      => encodeXYN 0x8 x y 0x3
  | .addReg x y   => encodeXYN 0x8 x y 0x4
  | .sub x y      => encodeXYN 0x8 x y 0x5
  | .shr x y      => encodeXYN 0x8 x y 0x6
  | .subn x y     => encodeXYN 0x8 x y 0x7
  | .shl x y      => encodeXYN 0x8 x y 0xE
  | .sneReg x y   => encodeXYN 0x9 x y 0x0
  | .ldI nnn      => encodeA 0xA nnn
  | .jpV0 nnn     => encodeA 0xB nnn
  | .rnd x nn     => encodeXI 0xC x nn
  | .drw x y n    => encodeXYN 0xD x y n
  | .skp x        => encodeXI 0xE x 0x9E
  | .sknp x       => encodeXI 0xE x 0xA1
  | .ldVxDt x     => encodeXI 0xF x 0x07
  | .ldVxK x      => encodeXI 0xF x 0x0A
  | .ldDtVx x     => encodeXI 0xF x 0x15
  | .ldStVx x     => encodeXI 0xF x 0x18
  | .addI x       => encodeXI 0xF x 0x1E
  | .ldF x        => encodeXI 0xF x 0x29
  | .ldB x        => encodeXI 0xF x 0x33
  | .ldMemVx x    => encodeXI 0xF x 0x55
  | .ldVxMem x    => encodeXI 0xF x 0x65

/-- The bytes of an instruction in address order (R62). -/
def encodeBytes (i : Instr) : List Byte := [hiByte (encode i), loByte (encode i)]

/-- What the decoder reads from an instruction whose bits are `w`, numbered as spec/opcode_table.json numbers them: the
bits above `nbits` are 0, and the word is laid out big-endian (R62) before it is decoded. -/
def decodeTableWord (nbits w : Nat) : Option Instr :=
  let word : Word := BitVec.ofNat 16 (w % 2 ^ nbits)
  match decodeBytes [hiByte word, loByte word] with
  | .ok (i, _) => some i
  | .error _ => none

end Sys2Proof
end

