-- ==== Sys2Proof/Config.lean ====
section
/-! DEFINITION. What an implementation fixes (spec/00_scope.md R7) and the one free value of the spec
(spec/42_alu.md R183). The two parameters of R7 that no rule uses, IPF and TICK_HZ, belong to the host (log 25). -/

namespace Sys2Proof

/-- The parameters a model of the CORE takes as arguments (R7): framebuffer width and height, and the 80 bytes of the
font table. Their defaults are `defaultParams` (Machine/Parameters.lean). -/
structure Params where
  fbW  : Nat
  fbH  : Nat
  font : List Byte
deriving DecidableEq, Repr

/-- The byte the `k`-th executed `Cxnn` draws: a free value with no law (R183, R37, spec/93 U1; log 3).
DESIGN CHOICE: indexed by the number of earlier draws, so that each draw may be any byte. Safe: nothing constrains it. -/
opaque Config.randomByte : Nat → Byte

end Sys2Proof
end

