-- ==== Sys2Proof/Machine/Parameters.lean ====
section
/-! DEFINITION. The default values of the parameters of spec/00_scope.md R7. PRESUMED: the spec marks all three
`[from general knowledge, not in source]` (R7, R32, R35; decisions D1 and D2; log 1, log 2). -/

namespace Sys2Proof.Machine

/-- The default font table of R35: glyph `g` is the five bytes at `5g`, top row first. PRESUMED (D2; log 2). -/
def defaultFont : List Byte :=
  [0xF0, 0x90, 0x90, 0x90, 0xF0,  0x20, 0x60, 0x20, 0x20, 0x70,
   0xF0, 0x10, 0xF0, 0x80, 0xF0,  0xF0, 0x10, 0xF0, 0x10, 0xF0] ++
  [0x90, 0x90, 0xF0, 0x10, 0x10,  0xF0, 0x80, 0xF0, 0x10, 0xF0,
   0xF0, 0x80, 0xF0, 0x90, 0xF0,  0xF0, 0x10, 0x20, 0x40, 0x40] ++
  [0xF0, 0x90, 0xF0, 0x90, 0xF0,  0xF0, 0x90, 0xF0, 0x10, 0xF0,
   0xF0, 0x90, 0xF0, 0x90, 0x90,  0xE0, 0x90, 0xE0, 0x90, 0xE0] ++
  [0xF0, 0x80, 0x80, 0x80, 0xF0,  0xE0, 0x90, 0x90, 0x90, 0xE0,
   0xF0, 0x80, 0xF0, 0x80, 0xF0,  0xF0, 0x80, 0xF0, 0x80, 0x80]

/-- The defaults of R7: 64 by 32 pixels (D1) and the font of R35 (D2). PRESUMED (log 1, log 2). -/
def defaultParams : Params := { fbW := 64, fbH := 32, font := defaultFont }

/-- The program load address and first `PC` (R6, R25, R68). -/
def loadAddress : Nat := 512

/-- The number of bytes of memory (R28, R60). -/
def memSize : Nat := 4096

/-- What a byte of memory that nothing has written reads as: the reset contents of R38 with the default font and no
program image. A machine built with another font lists the bytes in which it differs (`create`; log 2). -/
def resetByte (a : Nat) : Byte := defaultFont.getD a 0

end Sys2Proof.Machine
end

