-- ==== Sys2Proof/Machine/State.lean ====
section
/-! DEFINITION. The state of the CORE as plain data (spec/10_state.md), the fault causes (spec/60_exceptions.md R261), the
refusals, and the state after reset (R38). The last two fields of `State` are the model's own: the parameters the CORE was
built with (spec/00_scope.md R7) and how many random bytes have been drawn (spec/42_alu.md R183). -/

namespace Sys2Proof.Machine

/-- Main memory (R28): (address, byte) cells, addresses strictly rising, no cell equal to what an unlisted address reads
as (`resetByte`). The canonical form is `Memory.wf` (Ops.lean). -/
abbrev Memory := List Host.Cell

/-- The fault record of R36. The CORE is FAULTED when `code` is not 0. -/
structure FaultRecord where
  code : BitVec 3
  addr : Addr
  word : Word
  info : BitVec 13
deriving DecidableEq, Repr

/-- The architectural state (R20 to R38), and the model's own `params` and `draws`. -/
@[ext]
structure State where
  /-- `V[0]` to `V[15]` (R20); `V[15]` is `VF` (R22) -/
  v : Vector Byte 16
  /-- `I` (R24) -/
  i : Addr
  /-- `PC` (R25) -/
  pc : Addr
  /-- `MEM` (R28) -/
  mem : Memory
  /-- `STACK[0]` to `STACK[15]` (R29) -/
  stack : Vector Addr 16
  /-- `SP`, the number of saved entries, 0 to 16 (R30) -/
  sp : Fin 17
  /-- `DT` (R31) -/
  dt : Byte
  /-- `ST` (R31) -/
  st : Byte
  /-- `FB`, row-major: pixel `(x, y)` at index `y * FB_W + x`, `true` is on (R32, R132) -/
  fb : List Bool
  /-- `KEYS` (R33) -/
  keys : BitVec 16
  /-- `WAIT` (R34) -/
  wait : Bool
  /-- `WAITREG` (R34) -/
  waitReg : RegIdx
  /-- `FAULT` (R36) -/
  fault : FaultRecord
  /-- The model's own field: the parameters this CORE was built with (R7; log 1). No operation changes it. -/
  params : Params
  /-- The model's own field: how many random bytes `Cxnn` has drawn (R183; log 3, log 7). -/
  draws : Nat
deriving DecidableEq, Repr

/-- The fault causes of R261. Each is TAKEN, by `State.raise`, into the fault record of a NEXT state (R262); no step
answers `Host.Outcome.fault` (log 4). Safe: a FAULTED state changes no more (R270). -/
inductive Fault where
  /-- Raised by the decode of a word that matches no row of R96 (R263). Safe: the step still has a next state. -/
  | decodeFault
  /-- Raised by `2nnn` when `SP = 16` (R264). Safe, as above. -/
  | stackOverflow
  /-- Raised by `00EE` when `SP = 0` (R265). Safe, as above. -/
  | stackUnderflow
  /-- Raised by the fetch, `Fx33`, `Fx55`, `Fx65` and `Dxyn` for an access at or above 4096; `addr` is the lowest such
  address (R66, R266). Safe: the address is not wrapped (D4; log 13). -/
  | memoryBounds (addr : Nat)
  /-- Raised by `Ex9E` and `ExA1` when the key index is above 15 (R243, R267). Safe: the index is not masked (D5; log 14). -/
  | keyIndexBounds (index : Byte)
deriving DecidableEq, Repr

/-- Why an operation has no meaning. -/
inductive Refusal where
  /-- An instruction with no meaning yet: raised by no arm of `exec`, since every instruction has its meaning. Safe. -/
  | notModelled (mnemonic : String)
  /-- `ProgramTooLarge` (R302): raised by `create` on an image of more than 3584 bytes, which yields no CORE at all.
  Safe: the spec defines no operation after it (D22; log 21). -/
  | programTooLarge
deriving DecidableEq, Repr

/-- The record of a running CORE: all fields 0 (R36, R261). -/
abbrev FaultRecord.none : FaultRecord := { code := 0, addr := 0, word := 0, info := 0 }

/-- The state after `create` with an empty program image and the default parameters (R38, R301). -/
def State.reset : State where
  v := Vector.replicate 16 0
  i := 0
  pc := 0x200
  mem := []
  stack := Vector.replicate 16 0
  sp := 0
  dt := 0
  st := 0
  fb := List.replicate (defaultParams.fbW * defaultParams.fbH) false
  keys := 0
  wait := false
  waitReg := 0
  fault := FaultRecord.none
  params := defaultParams
  draws := 0

end Sys2Proof.Machine
end

