-- ==== Sys2Proof/Machine/Ops.lean ====
section
/-! DEFINITION. The named operations over registers, memory, the call stack, the program counter and the fault record,
on which every meaning is built: one home for each register, every access through it. -/

namespace Sys2Proof.Machine

/-! ### Memory as data -/

/-- The byte at address `a` (R28): the listed cell, or what an unlisted address reads as. -/
def Memory.read : Memory → Nat → Byte
  | [], a => resetByte a
  | c :: m, a => if c.1 = a then c.2 else Memory.read m a

/-- `m` with no cell at address `a`. -/
def Memory.dropCell (m : Memory) (a : Nat) : Memory := m.filter fun c => decide (c.1 ≠ a)

/-- Insert a cell before the first cell of a higher address. -/
def Memory.putCell : Memory → Nat → Byte → Memory
  | [], a, b => [(a, b)]
  | c :: m, a, b => if a < c.1 then (a, b) :: c :: m else c :: Memory.putCell m a b

/-- Store byte `b` at address `a`, keeping the canonical form: a byte equal to what the unlisted address reads as is not
listed. -/
def Memory.write (m : Memory) (a : Nat) (b : Byte) : Memory :=
  if b = resetByte a then m.dropCell a else (m.dropCell a).putCell a b

/-- The bytes of a list stored from address `a` on, in ascending order. -/
def Memory.writeList (m : Memory) (a : Nat) : List Byte → Memory
  | [] => m
  | b :: bs => (m.write a b).writeList (a + 1) bs

/-- Every address of `m` is at least `lo`, and they rise strictly. -/
def Memory.risingFrom : Nat → Memory → Bool
  | _, [] => true
  | lo, c :: m => decide (lo ≤ c.1) && Memory.risingFrom (c.1 + 1) m

/-- The canonical form of memory: addresses rise strictly, all lie below 4096 (R28), and no cell holds what its address
reads as when unlisted. -/
def Memory.wf (m : Memory) : Bool :=
  Memory.risingFrom 0 m && m.all fun c => decide (c.1 < memSize) && decide (c.2 ≠ resetByte c.1)

/-! ### One update per register -/

/-- `V[x]` (R20). -/
def State.reg (s : State) (x : RegIdx) : Byte := s.v[x.toNat]'x.isLt

/-- `V[x] <- b` (R9, R20). -/
def State.setReg (s : State) (x : RegIdx) (b : Byte) : State := { s with v := s.v.set x.toNat b x.isLt }

/-- `I <- a`; the width of `a` is the mask of R24. -/
def State.setI (s : State) (a : Addr) : State := { s with i := a }

/-- `PC <- a`; the width of `a` is the mask of R25. -/
def State.setPc (s : State) (a : Addr) : State := { s with pc := a }

/-- Main memory becomes `m`. -/
def State.setMem (s : State) (m : Memory) : State := { s with mem := m }

/-- `DT <- b` (R31). -/
def State.setDt (s : State) (b : Byte) : State := { s with dt := b }

/-- `ST <- b` (R31). -/
def State.setSt (s : State) (b : Byte) : State := { s with st := b }

/-- The framebuffer becomes `f` (R32). -/
def State.setFb (s : State) (f : List Bool) : State := { s with fb := f }

/-- `KEYS <- b` (R33). -/
def State.setKeys (s : State) (b : BitVec 16) : State := { s with keys := b }

/-- `WAITREG <- x; WAIT <- 1` (R34, R244). -/
def State.startWait (s : State) (x : RegIdx) : State := { s with wait := true, waitReg := x }

/-- `WAIT <- 0` (R130). -/
def State.endWait (s : State) : State := { s with wait := false }

/-- The oracle moves on by one draw (R183; log 3). -/
def State.countDraw (s : State) : State := { s with draws := s.draws + 1 }

/-! ### Faults (spec/60_exceptions.md) -/

/-- The numeric code of a fault (R261). -/
def Fault.code : Fault → BitVec 3
  | .decodeFault => 1
  | .stackOverflow => 2
  | .stackUnderflow => 3
  | .memoryBounds _ => 4
  | .keyIndexBounds _ => 5

/-- What a fault records in `FAULT.info` (R36, R261). -/
def Fault.info : Fault → BitVec 13
  | .memoryBounds addr => BitVec.ofNat 13 addr
  | .keyIndexBounds index => index.zeroExtend 13
  | _ => 0

/-- `raise` (R262): write the fault record and leave every other register as it is. -/
def State.raise (s : State) (pc0 : Addr) (word : Word) (f : Fault) : State :=
  { s with fault := { code := f.code, addr := pc0, word := word, info := f.info } }

/-- The CORE is FAULTED (R36, R270). -/
def State.faulted (s : State) : Bool := s.fault.code != 0

/-- `pc0`, the address of the instruction that is executing: `PC` holds `pc1 = trunc_12(pc0 + 2)` (R26).
DEDUCED: adding 2 modulo 4096 is undone by subtracting 2 (log 5). -/
def State.pc0 (s : State) : Addr := s.pc - 2

/-- The end of an instruction with an execution check: its effects are applied once and completely, or, if it raises a
fault, not at all (R123, R271). The state `s` is the one in which the instruction began executing, so `PC = pc1`. -/
def State.complete (s : State) (i : Instr) : Except Fault State → Host.Outcome State Fault Refusal
  | .ok t => .next t
  | .error f => .next (s.raise s.pc0 (encode i) f)

/-! ### Memory primitives (spec/00_scope.md R10) -/

/-- `MemRead(addr, 1)` (R10). -/
def State.memRead (s : State) (addr : Nat) : Except Fault Byte :=
  if addr < memSize then .ok (s.mem.read addr) else .error (.memoryBounds addr)

/-- `MemWrite(addr, 1, b)` (R10). -/
def State.memWrite (s : State) (addr : Nat) (b : Byte) : Except Fault State :=
  if addr < memSize then .ok (s.setMem (s.mem.write addr b)) else .error (.memoryBounds addr)

/-- The bounds check of a whole access of `n` bytes from `base`, made before its first byte (R66): addresses are not
wrapped, and the lowest failing one is 4096. -/
def checkAccess (base n : Nat) : Except Fault Unit :=
  if n = 0 ∨ base + n ≤ memSize then .ok () else .error (.memoryBounds memSize)

/-- Read `n` bytes from `base` in ascending order (R65). -/
def State.memReadSeq (s : State) (base : Nat) : Nat → Except Fault (List Byte)
  | 0 => .ok []
  | n + 1 =>
    match s.memRead base with
    | .error f => .error f
    | .ok b => (s.memReadSeq (base + 1) n).map fun bs => b :: bs

/-- Write bytes from `base` on in ascending order (R65). -/
def State.memWriteSeq (s : State) (base : Nat) : List Byte → Except Fault State
  | [] => .ok s
  | b :: bs =>
    match s.memWrite base b with
    | .error f => .error f
    | .ok t => t.memWriteSeq (base + 1) bs

/-- A checked read of `n` bytes (R66): the whole access is checked, then read. -/
def State.load (s : State) (base n : Nat) : Except Fault (List Byte) :=
  match checkAccess base n with
  | .error f => .error f
  | .ok () => s.memReadSeq base n

/-- A checked write of bytes (R66): the whole access is checked, then written. -/
def State.store (s : State) (base : Nat) (bs : List Byte) : Except Fault State :=
  match checkAccess base bs.length with
  | .error f => .error f
  | .ok () => s.memWriteSeq base bs

/-! ### The call stack (R29, R30) -/

/-- Push `p` (R30): `STACK[SP] <- p; SP <- SP + 1`. -/
def State.push (s : State) (p : Addr) : Except Fault State :=
  if h : s.sp.val < 16 then
    .ok { s with stack := s.stack.set s.sp.val p h, sp := ⟨s.sp.val + 1, by omega⟩ }
  else .error .stackOverflow

/-- The slot a pop reads, `STACK[SP - 1]` (R30). -/
def State.top (s : State) : Addr := s.stack[s.sp.val - 1]'(by omega)

/-- Pop (R30): `SP <- SP - 1; result = STACK[SP]`. The slot keeps its value. -/
def State.pop (s : State) : Except Fault (Addr × State) :=
  if s.sp.val = 0 then .error .stackUnderflow
  else .ok (s.top, { s with sp := ⟨s.sp.val - 1, by omega⟩ })

/-! ### The program counter (R26, R124) -/

/-- `PC <- trunc_12(PC + 2)`: the advance of a fetch, and the extra advance of a taken skip (R26, R122, R124). -/
def State.advancePc (s : State) : State := s.setPc (s.pc + 2)

/-- A conditional skip (R124). -/
def State.skipIf (s : State) (c : Bool) : State := if c then s.advancePc else s

/-- The fetch (R122, R62): the two bytes at `PC` and `PC + 1`, big-endian. It faults only at `PC = 0xFFF`. -/
def State.fetch (s : State) : Except Fault Word :=
  match s.load s.pc.toNat 2 with
  | .ok [hi, lo] => .ok (wordOfBytes hi lo)
  | .ok _ => .error (.memoryBounds memSize)
  | .error f => .error f

/-- The fault of the fetch itself: `PC` stays, and the word is recorded as 0 (R122, R262). -/
def State.raiseInFetch (s : State) (f : Fault) : State := s.raise s.pc 0 f

/-- The decode fault of the word fetched at `s.pc` (R263): `PC` has advanced and nothing else has changed. -/
def State.raiseInDecode (s : State) (w : Word) : State := s.advancePc.raise s.pc w .decodeFault

/-- The word `w` laid out big-endian at `PC` (R62), where the next fetch finds it. -/
def State.placeWord (s : State) (w : Word) : State :=
  s.setMem ((s.mem.write s.pc.toNat (hiByte w)).write (s.pc.toNat + 1) (loByte w))

end Sys2Proof.Machine
end

