-- ==== Sys2Proof/Machine/Flags.lean ====
section
/-! DEFINITION. Every flag the spec computes (spec/10_state.md R22): carry, no-borrow, the bit shifted out, collision; and
the order of the flag write against the result write (R23). -/

namespace Sys2Proof.Machine

/-- A flag as the 8-bit value 0x00 or 0x01 (R22). -/
def flagByte (c : Bool) : Byte := if c then 0x01 else 0x00

/-- The carry out of bit 7 of `a + b` (R177): the unwrapped sum is above 255. -/
def carryOut (a b : Byte) : Bool := decide (a.toNat + b.toNat > 255)

/-- No borrow in `a - b` (R178, R180): `a >= b`, the corrected semantics (D6; log 16). -/
def noBorrow (a b : Byte) : Bool := decide (a.toNat ≥ b.toNat)

/-- The bit a right shift moves out (R179). -/
def shiftedOutRight (a : Byte) : Bool := a.getLsbD 0

/-- The bit a left shift moves out (R181). -/
def shiftedOutLeft (a : Byte) : Bool := a.getLsbD 7

/-- The flag first, the result second (R23; log 17): with `x = 15` the result stays. -/
def State.setFlagThenReg (s : State) (x : RegIdx) (flag : Bool) (result : Byte) : State :=
  (s.setReg flagReg (flagByte flag)).setReg x result

end Sys2Proof.Machine
end

