-- ==== Sys2Proof/Machine/Operands.lean ====
section
/-! DEFINITION. The operand forms of spec/30_encoding.md R93 and spec/43_index_memory.md R206. Register operands are read by
`State.reg` from the state in which the instruction begins, which is the snapshot of R122; immediates are used as they stand
in the word. What is left are the computed targets and addresses, the register ranges of `Fx55` and `Fx65`, and the key a
register names. -/

namespace Sys2Proof.Machine

/-- The target of `Bnnn` (R157): `trunc_12(nnn + v0)`. -/
def indexedTarget (nnn : Addr) (v0 : Byte) : Addr := nnn + v0.zeroExtend 12

/-- The result of `Fx1E` (R201): `trunc_12(i0 + vx)`. -/
def offsetAddress (i0 : Addr) (vx : Byte) : Addr := i0 + vx.zeroExtend 12

/-- The result of `Fx29` (R202): `vx * 5`, over the whole 8-bit `vx`. -/
def glyphAddress (vx : Byte) : Addr := vx.zeroExtend 12 * 5

/-- The base of an access through `I`, a natural number that is not wrapped (R66, R206). -/
def State.base (s : State) : Nat := s.i.toNat

/-- The number of registers in the range `V[0]` to `V[x]` (R204, R205). -/
def rangeLength (x : RegIdx) : Nat := x.toNat + 1

/-- `V[0]` to `V[x]` in order (R204). -/
def State.regRange (s : State) (x : RegIdx) : List Byte :=
  (List.range (rangeLength x)).map fun k => s.reg (BitVec.ofNat 4 k)

/-- `V[k] <- b` for the bytes `b` of a list in order, from `k` on (R205). -/
def State.setRegsFrom (s : State) (k : Nat) : List Byte → State
  | [] => s
  | b :: bs => (s.setReg (BitVec.ofNat 4 k) b).setRegsFrom (k + 1) bs

/-- The decimal digits of `vx`: hundreds, tens, ones (R203). -/
def decimalDigits (vx : Byte) : List Byte :=
  [BitVec.ofNat 8 (vx.toNat / 100), BitVec.ofNat 8 (vx.toNat / 10 % 10), BitVec.ofNat 8 (vx.toNat % 10)]

/-- Whether the key `vx` names is held, or the fault of an index above 15 (R240, R241, R243). -/
def State.keyHeld (s : State) (vx : Byte) : Except Fault Bool :=
  if vx.toNat > 15 then .error (.keyIndexBounds vx) else .ok (s.keys.getLsbD vx.toNat)

/-- The draw of `Cxnn` (R183): the next byte of the free sequence (log 3). -/
def State.randomByte (s : State) : Byte := Config.randomByte s.draws

end Sys2Proof.Machine
end

