-- ==== Sys2Proof/Machine/Alu.lean ====
section
/-! DEFINITION. The load, arithmetic, logic, shift and random instructions of spec/42_alu.md. Results wrap modulo 256
(R170); none can fault. -/

namespace Sys2Proof.Machine

/-- `6xnn` LD Vx, nn (R171). -/
def execLdImm (x : RegIdx) (nn : Byte) (s : State) : Host.Outcome State Fault Refusal := .next (s.setReg x nn)

/-- `7xnn` ADD Vx, nn (R172): no flag. -/
def execAddImm (x : RegIdx) (nn : Byte) (s : State) : Host.Outcome State Fault Refusal :=
  .next (s.setReg x (s.reg x + nn))

/-- `8xy0` LD Vx, Vy (R173). -/
def execLdReg (x y : RegIdx) (s : State) : Host.Outcome State Fault Refusal := .next (s.setReg x (s.reg y))

/-- `8xy1` OR Vx, Vy (R174): no flag. -/
def execOr (x y : RegIdx) (s : State) : Host.Outcome State Fault Refusal :=
  .next (s.setReg x (s.reg x ||| s.reg y))

/-- `8xy2` AND Vx, Vy (R175): no flag. -/
def execAnd (x y : RegIdx) (s : State) : Host.Outcome State Fault Refusal :=
  .next (s.setReg x (s.reg x &&& s.reg y))

/-- `8xy3` XOR Vx, Vy (R176): no flag. -/
def execXor (x y : RegIdx) (s : State) : Host.Outcome State Fault Refusal :=
  .next (s.setReg x (s.reg x ^^^ s.reg y))

/-- `8xy4` ADD Vx, Vy (R177). -/
def execAddReg (x y : RegIdx) (s : State) : Host.Outcome State Fault Refusal :=
  .next (s.setFlagThenReg x (carryOut (s.reg x) (s.reg y)) (s.reg x + s.reg y))

/-- `8xy5` SUB Vx, Vy (R178). -/
def execSub (x y : RegIdx) (s : State) : Host.Outcome State Fault Refusal :=
  .next (s.setFlagThenReg x (noBorrow (s.reg x) (s.reg y)) (s.reg x - s.reg y))

/-- `8xy6` SHR Vx (R179): `V[y]` is neither read nor written. -/
def execShr (x _y : RegIdx) (s : State) : Host.Outcome State Fault Refusal :=
  .next (s.setFlagThenReg x (shiftedOutRight (s.reg x)) (s.reg x >>> 1))

/-- `8xy7` SUBN Vx, Vy (R180). -/
def execSubn (x y : RegIdx) (s : State) : Host.Outcome State Fault Refusal :=
  .next (s.setFlagThenReg x (noBorrow (s.reg y) (s.reg x)) (s.reg y - s.reg x))

/-- `8xyE` SHL Vx (R181): `V[y]` is neither read nor written. -/
def execShl (x _y : RegIdx) (s : State) : Host.Outcome State Fault Refusal :=
  .next (s.setFlagThenReg x (shiftedOutLeft (s.reg x)) (s.reg x <<< 1))

/-- `Cxnn` RND Vx, nn (R183): a free byte, masked by `nn` (log 3). -/
def execRnd (x : RegIdx) (nn : Byte) (s : State) : Host.Outcome State Fault Refusal :=
  .next ((s.setReg x (s.randomByte &&& nn)).countDraw)

end Sys2Proof.Machine
end

