-- ==== Sys2Proof/Machine/ControlFlow.lean ====
section
/-! DEFINITION. The control-flow instructions of spec/41_control_flow.md. Every meaning starts from the state in which
`PC = pc1` (spec/40_step_cycle_and_host_ops.md R122). -/

namespace Sys2Proof.Machine

/-- `00EE` RET (R150). -/
def execRet (s : State) : Host.Outcome State Fault Refusal :=
  s.complete .ret (s.pop.map fun r => r.2.setPc r.1)

/-- `1nnn` JP nnn (R151). -/
def execJp (nnn : Addr) (s : State) : Host.Outcome State Fault Refusal := .next (s.setPc nnn)

/-- `2nnn` CALL nnn (R152): the pushed value is `pc1`. -/
def execCall (nnn : Addr) (s : State) : Host.Outcome State Fault Refusal :=
  s.complete (.call nnn) ((s.push s.pc).map fun t => t.setPc nnn)

/-- `3xnn` SE Vx, nn (R153). -/
def execSeImm (x : RegIdx) (nn : Byte) (s : State) : Host.Outcome State Fault Refusal :=
  .next (s.skipIf (s.reg x == nn))

/-- `4xnn` SNE Vx, nn (R154). -/
def execSneImm (x : RegIdx) (nn : Byte) (s : State) : Host.Outcome State Fault Refusal :=
  .next (s.skipIf (s.reg x != nn))

/-- `5xy0` SE Vx, Vy (R155). -/
def execSeReg (x y : RegIdx) (s : State) : Host.Outcome State Fault Refusal :=
  .next (s.skipIf (s.reg x == s.reg y))

/-- `9xy0` SNE Vx, Vy (R156). -/
def execSneReg (x y : RegIdx) (s : State) : Host.Outcome State Fault Refusal :=
  .next (s.skipIf (s.reg x != s.reg y))

/-- `Bnnn` JP V0, nnn (R157). -/
def execJpV0 (nnn : Addr) (s : State) : Host.Outcome State Fault Refusal :=
  .next (s.setPc (indexedTarget nnn (s.reg 0)))

end Sys2Proof.Machine
end

