-- ==== Sys2Proof/Machine/Display.lean ====
section
/-! DEFINITION. The framebuffer (spec/10_state.md R32) and the display instructions of spec/44_display.md. -/

namespace Sys2Proof.Machine

/-- The row-major index of pixel `(x, y)` (R32, R132; log 12). -/
def pixelIndex (p : Params) (x y : Nat) : Nat := y * p.fbW + x

/-- `FB[x, y]` (R9, R32). -/
def State.pixel (s : State) (x y : Nat) : Bool := s.fb.getD (pixelIndex s.params x y) false

/-- A framebuffer with every pixel off (R32, R220). -/
def blankFb (p : Params) : List Bool := List.replicate (p.fbW * p.fbH) false

/-- What a draw works on: the framebuffer so far, and whether a lit pixel has been turned off (R221). -/
structure Canvas where
  fb : List Bool
  collision : Bool
deriving DecidableEq, Repr

/-- XOR one pixel with 1 and note a collision (R221). -/
def Canvas.toggle (c : Canvas) (k : Nat) : Canvas :=
  { fb := c.fb.set k (!(c.fb.getD k false)), collision := c.collision || c.fb.getD k false }

/-- The sprite bit of a column: bit 7 is the leftmost pixel (R221; D20; log 11). -/
def spriteBit (b : Byte) (col : Nat) : Bool := b.getLsbD (7 - col)

/-- Where the sprite pixel in column `col` and row `row` falls: both coordinates wrap (R221). -/
def spriteIndex (p : Params) (vx vy : Byte) (row col : Nat) : Nat :=
  pixelIndex p ((vx.toNat + col) % p.fbW) ((vy.toNat + row) % p.fbH)

/-- One pixel of the sprite: a bit of 0 leaves its pixel unchanged (R221). -/
def Canvas.drawPixel (p : Params) (vx vy : Byte) (row : Nat) (b : Byte) (c : Canvas) (col : Nat) : Canvas :=
  if spriteBit b col then c.toggle (spriteIndex p vx vy row col) else c

/-- One row of the sprite, columns left to right (R221, R222 (d)). -/
def Canvas.drawRow (p : Params) (vx vy : Byte) (row : Nat) (b : Byte) (c : Canvas) : Canvas :=
  (List.range 8).foldl (fun c col => c.drawPixel p vx vy row b col) c

/-- The rows of the sprite, top to bottom, from row `row` on (R221, R222 (d)). -/
def Canvas.drawRows (p : Params) (vx vy : Byte) (row : Nat) : List Byte → Canvas → Canvas
  | [], c => c
  | b :: bs, c => Canvas.drawRows p vx vy (row + 1) bs (c.drawRow p vx vy row b)

/-- `00E0` CLS (R220). -/
def execCls (s : State) : Host.Outcome State Fault Refusal := .next (s.setFb (blankFb s.params))

/-- `Dxyn` DRW Vx, Vy, n (R221): the framebuffer and then `VF`, written on every execution that does not fault. -/
def execDrw (x y : RegIdx) (n : Nibble) (s : State) : Host.Outcome State Fault Refusal :=
  s.complete (.drw x y n) ((s.load s.base n.toNat).map fun rows =>
    let c := Canvas.drawRows s.params (s.reg x) (s.reg y) 0 rows { fb := s.fb, collision := false }
    (s.setFb c.fb).setReg flagReg (flagByte c.collision))

end Sys2Proof.Machine
end

