-- ==== Sys2Proof/Machine/IndexMemory.lean ====
section
/-! DEFINITION. The address-register and memory instructions of spec/43_index_memory.md. Every access is checked whole
before its first byte (spec/20_memory.md R66), and none changes `I` but `Annn`, `Fx1E` and `Fx29`. -/

namespace Sys2Proof.Machine

/-- `Annn` LD I, nnn (R200). -/
def execLdI (nnn : Addr) (s : State) : Host.Outcome State Fault Refusal := .next (s.setI nnn)

/-- `Fx1E` ADD I, Vx (R201): no flag. -/
def execAddI (x : RegIdx) (s : State) : Host.Outcome State Fault Refusal :=
  .next (s.setI (offsetAddress s.i (s.reg x)))

/-- `Fx29` LD F, Vx (R202). -/
def execLdF (x : RegIdx) (s : State) : Host.Outcome State Fault Refusal := .next (s.setI (glyphAddress (s.reg x)))

/-- `Fx33` LD B, Vx (R203). -/
def execLdB (x : RegIdx) (s : State) : Host.Outcome State Fault Refusal :=
  s.complete (.ldB x) (s.store s.base (decimalDigits (s.reg x)))

/-- `Fx55` LD [I], Vx (R204). -/
def execLdMemVx (x : RegIdx) (s : State) : Host.Outcome State Fault Refusal :=
  s.complete (.ldMemVx x) (s.store s.base (s.regRange x))

/-- `Fx65` LD Vx, [I] (R205). -/
def execLdVxMem (x : RegIdx) (s : State) : Host.Outcome State Fault Refusal :=
  s.complete (.ldVxMem x) ((s.load s.base (rangeLength x)).map fun bs => s.setRegsFrom 0 bs)

end Sys2Proof.Machine
end

