-- ==== Sys2Proof/Machine/KeypadTimers.lean ====
section
/-! DEFINITION. The keypad and timer instructions of spec/45_keypad_timers.md. -/

namespace Sys2Proof.Machine

/-- `Ex9E` SKP Vx (R240, R243): the key is the value of `V[x]`. -/
def execSkp (x : RegIdx) (s : State) : Host.Outcome State Fault Refusal :=
  s.complete (.skp x) ((s.keyHeld (s.reg x)).map fun held => s.skipIf held)

/-- `ExA1` SKNP Vx (R241, R243). -/
def execSknp (x : RegIdx) (s : State) : Host.Outcome State Fault Refusal :=
  s.complete (.sknp x) ((s.keyHeld (s.reg x)).map fun held => s.skipIf (!held))

/-- `Fx07` LD Vx, DT (R242). -/
def execLdVxDt (x : RegIdx) (s : State) : Host.Outcome State Fault Refusal := .next (s.setReg x s.dt)

/-- `Fx0A` LD Vx, K (R244): it completes at once; later steps do nothing until `update_input` ends the wait. -/
def execLdVxK (x : RegIdx) (s : State) : Host.Outcome State Fault Refusal := .next (s.startWait x)

/-- `Fx15` LD DT, Vx (R245). -/
def execLdDtVx (x : RegIdx) (s : State) : Host.Outcome State Fault Refusal := .next (s.setDt (s.reg x))

/-- `Fx18` LD ST, Vx (R246). -/
def execLdStVx (x : RegIdx) (s : State) : Host.Outcome State Fault Refusal := .next (s.setSt (s.reg x))

end Sys2Proof.Machine
end

