-- ==== Sys2Proof/Machine/Cycle.lean ====
section
/-! DEFINITION. Fetch, decode and execute of one instruction (spec/40_step_cycle_and_host_ops.md R122, R123), in the order
of the checks of spec/60_exceptions.md R269. -/

namespace Sys2Proof.Machine

/-- Decode the word fetched at `s.pc` and execute it with `PC` already advanced (R123). -/
def State.executeWord (s : State) (w : Word) : Host.Outcome State Fault Refusal :=
  match decodeWord w with
  | .ok i => exec i s.advancePc
  | .error _ => .next (s.raiseInDecode w)

/-- One instruction of a running CORE (R122, R123). -/
def State.cycle (s : State) : Host.Outcome State Fault Refusal :=
  match s.fetch with
  | .ok w => s.executeWord w
  | .error f => .next (s.raiseInFetch f)

end Sys2Proof.Machine
end

