-- ==== Sys2Proof/Machine/Step.lean ====
section
/-! DEFINITION. The operation `step` (spec/40_step_cycle_and_host_ops.md R121), and where an instruction is placed for the
next fetch. -/

namespace Sys2Proof.Machine

/-- `step()` (R121): nothing happens when the CORE is FAULTED or waiting for a key; otherwise one instruction. -/
def step (s : State) : Host.Outcome State Fault Refusal :=
  if s.faulted then .next s
  else if s.wait then .next s
  else s.cycle

/-- `s` with the instruction whose bits are `w` at `PC`, big-endian, so that the next step of a running CORE fetches and
runs it (log 9, log 10). Nothing but memory changes. -/
def State.withFetchWord (s : State) (nbits w : Nat) : State :=
  s.placeWord (BitVec.ofNat 16 (w % 2 ^ nbits))

end Sys2Proof.Machine
end

