-- ==== Sys2Proof/WellFormed.lean ====
section
/-! DEFINITION. What is well formed before the machine acts on it: an instruction word (spec/30_encoding.md R95, R96), the
parameters (spec/00_scope.md R7) and a program image (spec/70_reset_and_hazards.md R301, R302). An `Instr` needs no check
of its own: its operands have the widths of their fields (R91), and nothing else is asked of them (R93: all 16 registers
and every immediate are allowed everywhere). -/

namespace Sys2Proof

/-- One row of the opcode map of R96: a word `w` is the row's instruction when `w &&& mask = value`. -/
structure OpRow where
  mnemonic : String
  mask     : Word
  value    : Word
deriving DecidableEq, Repr

/-- The row of R96 an instruction belongs to. -/
def rowOf : Instr → OpRow
  | .cls        => ⟨"CLS",       0xFFFF, 0x00E0⟩
  | .ret        => ⟨"RET",       0xFFFF, 0x00EE⟩
  | .jp _       => ⟨"JP",        0xF000, 0x1000⟩
  | .call _     => ⟨"CALL",      0xF000, 0x2000⟩
  | .seImm _ _  => ⟨"SE_IMM",    0xF000, 0x3000⟩
  | .sneImm _ _ => ⟨"SNE_IMM",   0xF000, 0x4000⟩
  | .seReg _ _  => ⟨"SE_REG",    0xF00F, 0x5000⟩
  | .ldImm _ _  => ⟨"LD_IMM",    0xF000, 0x6000⟩
  | .addImm _ _ => ⟨"ADD_IMM",   0xF000, 0x7000⟩
  | .ldReg _ _  => ⟨"LD_REG",    0xF00F, 0x8000⟩
  | .or _ _     => ⟨"OR",        0xF00F, 0x8001⟩
  | .and _ _    => ⟨"AND",       0xF00F, 0x8002⟩
  | .xor _ _    => ⟨"XOR",       0xF00F, 0x8003⟩
  | .addReg _ _ => ⟨"ADD_REG",   0xF00F, 0x8004⟩
  | .sub _ _    => ⟨"SUB",       0xF00F, 0x8005⟩
  | .shr _ _    => ⟨"SHR",       0xF00F, 0x8006⟩
  | .subn _ _   => ⟨"SUBN",      0xF00F, 0x8007⟩
  | .shl _ _    => ⟨"SHL",       0xF00F, 0x800E⟩
  | .sneReg _ _ => ⟨"SNE_REG",   0xF00F, 0x9000⟩
  | .ldI _      => ⟨"LD_I",      0xF000, 0xA000⟩
  | .jpV0 _     => ⟨"JP_V0",     0xF000, 0xB000⟩
  | .rnd _ _    => ⟨"RND",       0xF000, 0xC000⟩
  | .drw _ _ _  => ⟨"DRW",       0xF000, 0xD000⟩
  | .skp _      => ⟨"SKP",       0xF0FF, 0xE09E⟩
  | .sknp _     => ⟨"SKNP",      0xF0FF, 0xE0A1⟩
  | .ldVxDt _   => ⟨"LD_VX_DT",  0xF0FF, 0xF007⟩
  | .ldVxK _    => ⟨"LD_VX_K",   0xF0FF, 0xF00A⟩
  | .ldDtVx _   => ⟨"LD_DT_VX",  0xF0FF, 0xF015⟩
  | .ldStVx _   => ⟨"LD_ST_VX",  0xF0FF, 0xF018⟩
  | .addI _     => ⟨"ADD_I",     0xF0FF, 0xF01E⟩
  | .ldF _      => ⟨"LD_F",      0xF0FF, 0xF029⟩
  | .ldB _      => ⟨"LD_B",      0xF0FF, 0xF033⟩
  | .ldMemVx _  => ⟨"LD_MEM_VX", 0xF0FF, 0xF055⟩
  | .ldVxMem _  => ⟨"LD_VX_MEM", 0xF0FF, 0xF065⟩

/-- The opcode map of R96: its 34 rows, in the order of spec/opcode_table.json. -/
def opcodeTable : List OpRow :=
  ([.cls, .ret, .jp 0, .call 0, .seImm 0 0, .sneImm 0 0, .seReg 0 0, .ldImm 0 0, .addImm 0 0, .ldReg 0 0, .or 0 0,
    .and 0 0, .xor 0 0, .addReg 0 0, .sub 0 0, .shr 0 0, .subn 0 0, .shl 0 0, .sneReg 0 0, .ldI 0, .jpV0 0, .rnd 0 0,
    .drw 0 0 0, .skp 0, .sknp 0, .ldVxDt 0, .ldVxK 0, .ldDtVx 0, .ldStVx 0, .addI 0, .ldF 0, .ldB 0, .ldMemVx 0,
    .ldVxMem 0] : List Instr).map rowOf

/-- A word matches a row under the row's mask (R96). -/
def OpRow.matchesWord (r : OpRow) (w : Word) : Bool := w &&& r.mask == r.value

/-- A word is an instruction if and only if it matches a row of R96 (R95); every other word is invalid (R97). -/
def wordWellFormed (w : Word) : Bool := opcodeTable.any fun r => r.matchesWord w

/-- The constraints R7 puts on the parameters: a sprite never overlaps itself, and the font has exactly 80 bytes. DESIGN CHOICE:
any 80 bytes are a font, so bits 3 to 0 of a byte need not be 0 as the glyph format of R35 has them (log 30). Safe: a claim over
all parameters holds for the fonts of that format as well. -/
def Params.wellFormed (p : Params) : Bool :=
  decide (8 ≤ p.fbW) && decide (15 ≤ p.fbH) && decide (p.font.length = 80)

/-- The longest program image (R301, R302): 4096 - 512 bytes. -/
def maxImage : Nat := 3584

/-- The precondition of `create` on its image (R302). -/
def imageWellFormed (image : List Byte) : Bool := decide (image.length ≤ maxImage)

end Sys2Proof
end

