-- ==== Sys2Proof/Machine/HostOps.lean ====
section
/-! DEFINITION. The operations the host issues besides `step` (spec/40_step_cycle_and_host_ops.md R120): `create`, `run`,
`tick_timers`, `update_input`, the framebuffer read, and the whole as one state machine. -/

namespace Sys2Proof.Machine

/-! ### create (R127, R300 to R303) -/

/-- The state of R38 for parameters `p` and a program image of at most 3584 bytes. The oracle of `Cxnn` is no part of the
CORE (R37), so it goes on from where it stands, `draws` (log 7). -/
def State.created (p : Params) (draws : Nat) (image : List Byte) : State where
  v := Vector.replicate 16 0
  i := 0
  pc := BitVec.ofNat 12 loadAddress
  mem := (Memory.writeList [] 0 p.font).writeList loadAddress image
  stack := Vector.replicate 16 0
  sp := 0
  dt := 0
  st := 0
  fb := blankFb p
  keys := 0
  wait := false
  waitReg := 0
  fault := FaultRecord.none
  params := p
  draws := draws

/-- `create(program_bytes)` (R127, R301): an oversized image yields no CORE at all (R302; log 21). -/
def create (p : Params) (draws : Nat) (image : List Byte) : Host.Outcome State Fault Refusal :=
  if imageWellFormed image then .next (State.created p draws image) else .refused .programTooLarge

/-! ### run (R126) -/

/-- `run(n)`: `n` steps. After a fault the remaining steps do nothing, as steps of a FAULTED CORE (R126, R270). -/
def run : Nat → State → Host.Outcome State Fault Refusal
  | 0, s => .next s
  | n + 1, s =>
    match step s with
    | .next t => run n t
    | .fault f => .fault f
    | .refused r => .refused r

/-! ### tick_timers (R128, R129) -/

/-- A timer one tick later: down by one, floored at 0 (R31, R128). -/
def countDown (b : Byte) : Byte := if b = 0 then 0 else b - 1

/-- `tick_timers()` (R128): it does not look at `WAIT` (R129). -/
def State.tickTimers (s : State) : State :=
  if s.faulted then s else (s.setDt (countDown s.dt)).setSt (countDown s.st)

/-! ### update_input (R130, R131) -/

/-- The keys that go from released to held between `old` and `new` (R130). -/
def newlyPressed (old new : BitVec 16) : BitVec 16 := new &&& ~~~old

/-- The lowest set bit of a key bitmap, if any (R130). -/
def lowestKey (b : BitVec 16) : Option Nat := (List.range 16).find? fun k => b.getLsbD k

/-- End a wait with key `k` (R130): `V[WAITREG] <- k; WAIT <- 0`. -/
def State.deliverKey (s : State) (k : Nat) : State := (s.setReg s.waitReg (BitVec.ofNat 8 k)).endWait

/-- `update_input(bitmap)` (R130): `KEYS` is replaced whether or not the CORE waits. -/
def State.updateInput (s : State) (bitmap : BitVec 16) : State :=
  if s.faulted then s
  else
    match s.wait, lowestKey (newlyPressed s.keys bitmap) with
    | true, some k => (s.deliverKey k).setKeys bitmap
    | _, _ => s.setKeys bitmap

/-! ### What the host reads (R132, R133) -/

/-- The framebuffer read (R132): the pixels, row-major. -/
def State.readFramebuffer (s : State) : List Bool :=
  (List.range (s.params.fbW * s.params.fbH)).map fun k => s.pixel (k % s.params.fbW) (k / s.params.fbW)

/-- Whether the sound timer is above 0, which the host may turn into a tone (R31, R128, R133). -/
def State.soundOn (s : State) : Bool := s.st != 0

/-! ### The state machine over the host's operations (R120) -/

/-- The operations of R120. -/
inductive HostOp where
  /-- `create(program_bytes)`, with the parameters the CORE was built with (R300) -/
  | create (image : List Byte)
  /-- `step()` (R121) -/
  | step
  /-- `run(n)` (R126) -/
  | run (n : Nat)
  /-- `tick_timers()` (R128) -/
  | tickTimers
  /-- `update_input(bitmap)` (R130) -/
  | updateInput (bitmap : BitVec 16)
  /-- the framebuffer read (R132); what it answers is `State.readFramebuffer` -/
  | readFramebuffer
deriving DecidableEq, Repr

/-- One operation, atomic and complete (R120). -/
def State.apply (s : State) : HostOp → Host.Outcome State Fault Refusal
  | .create image => Machine.create s.params s.draws image
  | .step => Machine.step s
  | .run n => Machine.run n s
  | .tickTimers => .next s.tickTimers
  | .updateInput bitmap => .next (s.updateInput bitmap)
  | .readFramebuffer => .next s

/-- Operations in the order the host issues them (R120). -/
def State.applyAll (s : State) : List HostOp → Host.Outcome State Fault Refusal
  | [] => .next s
  | op :: ops =>
    match s.apply op with
    | .next t => t.applyAll ops
    | .fault f => .fault f
    | .refused r => .refused r

/-- The reference host's frame (R134): a habit of that host, which no rule of the CORE uses. -/
def referenceFrame (ipf : Nat) (bitmap : BitVec 16) : List HostOp :=
  [.run ipf, .tickTimers, .updateInput bitmap, .readFramebuffer]

end Sys2Proof.Machine
end

