-- ==== Sys2Proof/Safety.lean ====
section
/-! DEFINITION. The terms claims are stated in: the conditions a CORE can be in (spec/60_exceptions.md R275), the invariant
every operation keeps, which fault an instruction raises when (R261), and what an instruction may change
(spec/10_state.md R39). Each table below is written from the spec and not from the meanings. -/

namespace Sys2Proof.Machine

/-! ### Conditions (R275) -/

/-- Neither FAULTED nor waiting: the next step fetches an instruction (R121, R275). -/
def State.running (s : State) : Prop := s.fault.code = 0 ∧ s.wait = false

/-- The bytes at `PC` and `PC + 1`, big-endian (R62): the word the next fetch assembles when `PC` is below 0xFFF. -/
def State.wordAtPc (s : State) : Word := s.mem.read s.pc.toNat ++ s.mem.read (s.pc.toNat + 1)

/-! ### The invariant -/

/-- A fault record the CORE can hold (R36, R261): the code goes with the fields it records. The record is all 0, or
its code is 1 with a word that is no instruction; 2 with a `2nnn`; 3 with `00EE`; 4 with `info` 4096 and the word 0 (the
fetch, at 0xFFF) or one of `Dxyn`, `Fx33`, `Fx55`, `Fx65`; 5 with `info` 16 to 255 and `Ex9E` or `ExA1`. -/
def FaultRecord.legal (r : FaultRecord) : Prop :=
  r = FaultRecord.none ∨
  (r.code = 1 ∧ wordWellFormed r.word = false ∧ r.info = 0) ∨
  (r.code = 2 ∧ r.word &&& 0xF000 = 0x2000 ∧ r.info = 0) ∨
  (r.code = 3 ∧ r.word = 0x00EE ∧ r.info = 0) ∨
  (r.code = 4 ∧ r.info = 4096 ∧
    (r.word = 0 ∧ r.addr = 0xFFF ∨ r.word &&& 0xF000 = 0xD000 ∨
      r.word &&& 0xF0FF ∈ ([0xF033, 0xF055, 0xF065] : List Word))) ∨
  (r.code = 5 ∧ 16 ≤ r.info.toNat ∧ r.info.toNat ≤ 255 ∧ r.word &&& 0xF0FF ∈ ([0xE09E, 0xE0A1] : List Word))

/-- What holds of the CORE after `create` and after every operation: memory is in canonical form with every address below
4096 (R28); the parameters meet R7; the framebuffer has `FB_W * FB_H` pixels (R32); the fault record is one of R261; and a
FAULTED CORE is not waiting (R275). -/
structure State.Inv (s : State) : Prop where
  mem : s.mem.wf = true
  params : s.params.wellFormed = true
  fb : s.fb.length = s.params.fbW * s.params.fbH
  fault : s.fault.legal
  condition : s.fault.code ≠ 0 → s.wait = false

/-! ### Which fault, when (R261, R269) -/

/-- The execution check of R261: the fault an instruction raises in state `s`, if any. No other instruction can fault. -/
def faultOf (i : Instr) (s : State) : Option Fault :=
  match i with
  | .call _    => if s.sp.val = 16 then some .stackOverflow else none
  | .ret       => if s.sp.val = 0 then some .stackUnderflow else none
  | .ldB _     => if 4094 ≤ s.i.toNat then some (.memoryBounds 4096) else none
  | .ldMemVx x => if 4096 ≤ s.i.toNat + x.toNat then some (.memoryBounds 4096) else none
  | .ldVxMem x => if 4096 ≤ s.i.toNat + x.toNat then some (.memoryBounds 4096) else none
  | .drw _ _ n => if 1 ≤ n.toNat ∧ 4096 ≤ s.i.toNat + n.toNat - 1 then some (.memoryBounds 4096) else none
  | .skp x     => if 15 < (s.reg x).toNat then some (.keyIndexBounds (s.reg x)) else none
  | .sknp x    => if 15 < (s.reg x).toNat then some (.keyIndexBounds (s.reg x)) else none
  | _ => none

/-! ### What may change (R39) -/

/-- The pieces of state of R39, but for `PC`, which every instruction may change, and `V`, which `sameRegsBut` speaks of. -/
inductive Part where
  | i | mem | stack | sp | dt | st | fb | keys | wait | waitReg | fault | params | draws
deriving DecidableEq, Repr

/-- `t` holds what `s` holds in every piece of state not named in `parts`; memory is compared through the read of one byte,
at every address. Nothing is said of `PC` and of the general registers. -/
structure sameBut (parts : List Part) (s t : State) : Prop where
  i : Part.i ∉ parts → t.i = s.i
  mem : Part.mem ∉ parts → ∀ a, t.mem.read a = s.mem.read a
  stack : Part.stack ∉ parts → t.stack = s.stack
  sp : Part.sp ∉ parts → t.sp = s.sp
  dt : Part.dt ∉ parts → t.dt = s.dt
  st : Part.st ∉ parts → t.st = s.st
  fb : Part.fb ∉ parts → t.fb = s.fb
  keys : Part.keys ∉ parts → t.keys = s.keys
  wait : Part.wait ∉ parts → t.wait = s.wait
  waitReg : Part.waitReg ∉ parts → t.waitReg = s.waitReg
  fault : Part.fault ∉ parts → t.fault = s.fault
  params : Part.params ∉ parts → t.params = s.params
  draws : Part.draws ∉ parts → t.draws = s.draws

/-- Every general register but those of `rs` holds what it held; `VF` is register 15 (R22). -/
def sameRegsBut (rs : List RegIdx) (s t : State) : Prop := ∀ r, r ∉ rs → t.reg r = s.reg r

/-- `t` is `s` with `V[x] = b` and nothing else changed: not `PC` either, which already holds `pc1`. -/
def writesOnlyReg (s t : State) (x : RegIdx) (b : Byte) : Prop :=
  t.reg x = b ∧ sameRegsBut [x] s t ∧ t.pc = s.pc ∧ sameBut [] s t

/-- `t` is `s` with the result `b` in `V[x]` and, unless `x` is 15, the flag in `VF`, and nothing else changed (R23). -/
def writesRegAndFlag (s t : State) (x : RegIdx) (b : Byte) (flag : Bool) : Prop :=
  t.reg x = b ∧ (x ≠ 15 → t.reg 15 = if flag then 0x01 else 0x00) ∧ sameRegsBut [x, 15] s t ∧ t.pc = s.pc ∧
    sameBut [] s t

/-- `t` is `s` with fault `f` recorded, and nothing else changed: not `PC` either, which holds `pc1` (R262, R271). What the
record says besides the code is `InstructionsFaultExactlyWhenTabled`'s to state. -/
def onlyFaulted (f : Fault) (s t : State) : Prop :=
  t.fault.code ≠ 0 ∧ t.fault.code = f.code ∧ t = { s with fault := t.fault }

/-! ### Stores (R203, R204) -/

/-- The byte at address `a` once the storing instruction `i` has executed without a fault in state `s`: a digit of `V[x]` for
`Fx33` (R203), a register for `Fx55` (R204), and elsewhere the byte that was there. Written from the spec's table of stored
bytes and not from the meanings; no other instruction stores. -/
def byteAfterStore (i : Instr) (s : State) (a : Nat) : Byte :=
  match i with
  | .ldB x =>
    if a = s.i.toNat then BitVec.ofNat 8 ((s.reg x).toNat / 100)
    else if a = s.i.toNat + 1 then BitVec.ofNat 8 ((s.reg x).toNat / 10 % 10)
    else if a = s.i.toNat + 2 then BitVec.ofNat 8 ((s.reg x).toNat % 10)
    else s.mem.read a
  | .ldMemVx x =>
    if s.i.toNat ≤ a ∧ a ≤ s.i.toNat + x.toNat then s.reg (BitVec.ofNat 4 (a - s.i.toNat)) else s.mem.read a
  | _ => s.mem.read a

/-! ### Pixels (R221, R222) -/

/-- A set bit of the `n`-row sprite at `I`, drawn at `(vx, vy)`, falls on pixel `(px, py)`, coordinates wrapping on both
axes (R221). -/
def spriteCovers (s : State) (vx vy : Byte) (n : Nibble) (px py : Nat) : Prop :=
  ∃ row < n.toNat, ∃ col < 8, (vx.toNat + col) % s.params.fbW = px ∧ (vy.toNat + row) % s.params.fbH = py ∧
    (s.mem.read (s.i.toNat + row)).getLsbD (7 - col) = true

/-- Some pixel that a set sprite bit falls on is lit: the draw turns it off (R221, R222 (d)). -/
def spriteCollides (s : State) (vx vy : Byte) (n : Nibble) : Prop :=
  ∃ px < s.params.fbW, ∃ py < s.params.fbH, s.pixel px py = true ∧ spriteCovers s vx vy n px py

end Sys2Proof.Machine
end

