-- ==== Sys2Proof/Certificates/Slice0/Obligations.lean ====
section
/-! DEFINITION. The statements for the provers. In every statement about `exec`, the state is the one in which the
instruction begins executing: `PC` already holds `pc1` (spec/40_step_cycle_and_host_ops.md R122), so that the instruction's
own address is `s.pc - 2`. -/

open Sys2Proof Sys2Proof.Machine

/-! ### Encoding (spec/30_encoding.md) -/

/-- Decode and encode agree on bytes: the two bytes of an instruction, big-endian, decode to it, and the rest is left
(R62, R90 to R93). -/
def Obligations.DecodeOfEncodeIsTheInstruction : Prop :=
  ∀ (i : Instr) (rest : List Byte), decodeBytes (encodeBytes i ++ rest) = .ok (i, rest)

/-- A word that decodes is the word of the instruction it decodes to: no bit of it is dropped (R91, R92). -/
def Obligations.EncodeOfDecodeIsTheWord : Prop :=
  ∀ (w : Word) (i : Instr), decodeWord w = .ok i → encode i = w

/-- The opcode map (R96): 34 rows, no word matches two of them, and a word that matches a row is that row's instruction. -/
def Obligations.RowMatchGivesTheInstruction : Prop :=
  opcodeTable.length = 34 ∧
  (∀ w : Word, ∀ a ∈ opcodeTable, ∀ b ∈ opcodeTable, a.matchesWord w = true → b.matchesWord w = true → a = b) ∧
  (∀ w : Word, ∀ r ∈ opcodeTable, w &&& r.mask = r.value → ∃ i, decodeWord w = .ok i ∧ rowOf i = r)

/-- Matching is exact: a word is an instruction if and only if it matches a row of the opcode map. The strictness on the
undecoded digits is the spec's decision D9 (log 15); the four words are its own examples. -/
def Obligations.WordIsInstructionIffARowMatches : Prop :=
  (∀ w : Word, (∃ i, decodeWord w = .ok i) ↔ wordWellFormed w = true) ∧
  (∀ w ∈ ([0x01E0, 0x0FEE, 0x5121, 0x9AB3] : List Word), decodeWord w = .error (.invalidWord w))

/-- The invalid words, group by group, as the table of R97 lists them (its counts are not restated); the strictness on the
undecoded digits is the spec's decision D9 (log 15). -/
def Obligations.InvalidWordsAreTheTabledOnes : Prop :=
  ∀ w : Word, decodeWord w = .error (.invalidWord w) ↔
    (fieldOp w = 0x0 ∧ w ≠ 0x00E0 ∧ w ≠ 0x00EE) ∨
    (fieldOp w = 0x5 ∧ fieldN w ≠ 0) ∨
    (fieldOp w = 0x8 ∧ fieldN w ∈ ([0x8, 0x9, 0xA, 0xB, 0xC, 0xD, 0xF] : List Nibble)) ∨
    (fieldOp w = 0x9 ∧ fieldN w ≠ 0) ∨
    (fieldOp w = 0xE ∧ fieldNN w ∉ ([0x9E, 0xA1] : List Byte)) ∨
    (fieldOp w = 0xF ∧ fieldNN w ∉ ([0x07, 0x0A, 0x15, 0x18, 0x1E, 0x29, 0x33, 0x55, 0x65] : List Byte))

/-- Words written out bit by bit from R92 and R96 decode to the instructions they stand for, one of every format. -/
def Obligations.WrittenOutWordsDecode : Prop :=
  decodeWord 0b0000000011101110 = .ok .ret ∧
  decodeWord 0b0001101010111100 = .ok (.jp 0xABC) ∧
  decodeWord 0b0011101001000010 = .ok (.seImm 0xA 0x42) ∧
  decodeWord 0b1000000100100100 = .ok (.addReg 0x1 0x2) ∧
  decodeWord 0b1101000100100101 = .ok (.drw 0x1 0x2 0x5) ∧
  decodeWord 0b1111001001010101 = .ok (.ldMemVx 0x2) ∧
  decodeWord 0b1110000110100001 = .ok (.sknp 0x1)

/-! ### The step cycle (spec/40_step_cycle_and_host_ops.md) -/

/-- `step()` (R121): a FAULTED CORE and a waiting CORE do nothing at all; otherwise exactly one instruction is fetched and,
if valid, executed (the fetch at 0xFFF and the invalid word have statements of their own). That a FAULTED CORE does nothing is
the spec's decision D10 (log 4). -/
def Obligations.StepIsOneInstructionOrNothing : Prop :=
  ∀ s : State,
    (s.fault.code ≠ 0 → step s = .next s) ∧
    (s.wait = true → step s = .next s) ∧
    (s.running → s.pc ≠ 0xFFF → ∀ i, decodeWord s.wordAtPc = .ok i → step s = exec i { s with pc := s.pc + 2 })

/-- A step runs the decoded instruction: where the bytes at `PC` decode to `i`, a running CORE's step is `exec i` at the state
in which `PC` has moved past the instruction's two bytes (R122, R123). -/
def Obligations.StepRunsTheDecodedInstruction : Prop :=
  ∀ (s : State) (i : Instr), s.running → s.pc ≠ 0xFFF →
    decodeBytes [s.mem.read s.pc.toNat, s.mem.read (s.pc.toNat + 1)] = .ok (i, []) →
    step s = exec i { s with pc := s.pc + 2 }

/-- The fetch at 0xFFF faults: `MemoryBounds(4096)`, `PC` stays, the word is recorded as 0. Rests on the spec's decisions D4
and D10 (log 13, log 4). -/
def Obligations.FetchAtTheTopFaults : Prop :=
  ∀ s : State, s.running → s.pc = 0xFFF →
    step s = .next { s with fault := { code := 4, addr := 0xFFF, word := 0, info := 4096 } }

/-- The decode fault: it identifies the address and the word, advances `PC` past the word, and changes nothing else. The
record's layout and code are the spec's decision D10 (log 4, log 6), the set of invalid words its decision D9 (log 15). -/
def Obligations.InvalidWordFaultsAndChangesNothingElse : Prop :=
  ∀ s : State, s.running → s.pc ≠ 0xFFF → wordWellFormed s.wordAtPc = false →
    step s = .next { s with pc := s.pc + 2, fault := { code := 1, addr := s.pc, word := s.wordAtPc, info := 0 } }

/-- There is no halt (R135): from every state a step has a next state. No step answers a fault or a refusal of the host's
interface, since faults are taken into the fault record (the spec's decision D10; log 4). -/
def Obligations.EveryStepHasANextState : Prop :=
  ∀ s : State, ∃ t, step s = .next t

/-- FAULTED is terminal: no operation but `create` changes any state of a FAULTED CORE, and `create` leaves the condition.
That the CORE itself refuses further operations is the spec's decision D10 (log 4). -/
def Obligations.FaultedIsTerminal : Prop :=
  (∀ (s : State) (ops : List HostOp), s.fault.code ≠ 0 → (∀ image, HostOp.create image ∉ ops) →
    s.applyAll ops = .next s) ∧
  (∀ (s t : State) (image : List Byte), s.apply (.create image) = .next t → t.fault = FaultRecord.none)

/-! ### Invariants and faults (spec/60_exceptions.md) -/

/-- Every step keeps the invariant. The fault records it allows are those of the spec's decisions D10, D4, D5 and D9 (log 4, log 13,
log 14, log 15). -/
def Obligations.StepKeepsTheInvariant : Prop :=
  ∀ s t : State, s.Inv → step s = .next t → t.Inv

/-- The reset state meets the invariant: canonical memory, parameters that meet R7, a framebuffer of their size, a legal fault record,
and no wait if it is FAULTED. The size is the spec's default D1 and the font's 80 bytes its default D2 (log 1, log 2). -/
def Obligations.ResetMeetsTheInvariant : Prop := State.reset.Inv

/-- Every operation of the host keeps the invariant, `run(n)` and `create` among them. The fault records it allows are those of the
spec's decisions D10, D4, D5 and D9 (log 4, log 13, log 14, log 15). -/
def Obligations.HostOperationsKeepTheInvariant : Prop :=
  ∀ (s t : State) (op : HostOp), s.Inv → s.apply op = .next t → t.Inv

/-- `create` with any parameters that meet R7, and any image it accepts, meets the invariant. -/
def Obligations.CreateMeetsTheInvariant : Prop :=
  ∀ (p : Params) (draws : Nat) (image : List Byte) (t : State), p.wellFormed = true →
    Machine.create p draws image = .next t → t.Inv

/-- Faults are precise: a step that faults changes `FAULT` and `PC` and nothing else; it records the instruction's own
address; `PC` has advanced past the word, unless the fetch itself faulted at 0xFFF. The no-partial-effect rule is the spec's
decision D11 (log 19), the record its decision D10 (log 4). -/
def Obligations.FaultsArePrecise : Prop :=
  ∀ s t : State, s.running → step s = .next t → t.fault.code ≠ 0 →
    t = { s with pc := t.pc, fault := t.fault } ∧ t.fault.addr = s.pc ∧
    t.pc = if s.pc = 0xFFF then 0xFFF else s.pc + 2

/-- Which instruction faults, and when: `exec` raises exactly the fault of the cause table (`faultOf`), with the
record the table gives, changing nothing else, and otherwise leaves the record alone. The codes and what is recorded as info are
`Fault.code` and `Fault.info`: 1 to 5, and 4096, the key index or 0. Codes and record are the spec's decision D10 (log 4, log 5),
that a fault changes nothing else its decision D11 (log 19), the bounds its decisions D4 and D5 (log 13, log 14). -/
def Obligations.InstructionsFaultExactlyWhenTabled : Prop :=
  ∀ (i : Instr) (s : State),
    (∀ f, faultOf i s = some f →
      exec i s = .next { s with fault := { code := f.code, addr := s.pc - 2, word := encode i, info := f.info } }) ∧
    (faultOf i s = none → ∃ t, exec i s = .next t ∧ t.fault = s.fault)

/-! ### Control flow (spec/41_control_flow.md) -/

/-- `00EE` (R150): `SP` down by one and `PC` from `STACK[SP]`, the slot keeping its value; with `SP = 0` it raises
`StackUnderflow` and nothing but the fault record changes. Which slot a pop reads, and that it keeps its value, is the spec's
decision D12 (log 18); the fault's code is its decision D10 (log 4), and that nothing else changes its decision D11 (log 19). -/
def Obligations.ReturnPopsTheStack : Prop :=
  ∀ s : State,
    (∀ k : Fin 16, s.sp.val = k.val + 1 →
      exec .ret s = .next { s with sp := ⟨k.val, by omega⟩, pc := s.stack[k.val] }) ∧
    (s.sp.val = 0 → ∃ t, exec .ret s = .next t ∧ onlyFaulted .stackUnderflow s t)

/-- `1nnn` (R151): `PC` is exactly `nnn`, any value of it. -/
def Obligations.JumpSetsThePc : Prop :=
  ∀ (nnn : Addr) (s : State), exec (.jp nnn) s = .next { s with pc := nnn }

/-- `2nnn` (R152): `pc1` goes to `STACK[SP]`, `SP` up by one, `PC` is `nnn`; with `SP = 16` it raises `StackOverflow` and
nothing but the fault record changes. Which slot a push writes is the spec's decision D12 (log 18); the fault's code is its
decision D10 (log 4), and that nothing else changes its decision D11 (log 19). -/
def Obligations.CallPushesTheReturnAddress : Prop :=
  ∀ (nnn : Addr) (s : State),
    (∀ h : s.sp.val < 16,
      exec (.call nnn) s =
        .next { s with stack := s.stack.set s.sp.val s.pc h, sp := ⟨s.sp.val + 1, by omega⟩, pc := nnn }) ∧
    (s.sp.val = 16 → ∃ t, exec (.call nnn) s = .next t ∧ onlyFaulted .stackOverflow s t)

/-- A return undoes a call: executed in any state whose stack is as the call left it, `00EE` restores `PC` to the
instruction after the call and `SP` to what it was. Which slot a push uses is the spec's decision D12 (log 18). -/
def Obligations.ReturnUndoesCall : Prop :=
  ∀ (nnn : Addr) (s t u : State), s.sp.val < 16 → exec (.call nnn) s = .next t → u.stack = t.stack → u.sp = t.sp →
    ∃ w, exec .ret u = .next w ∧ w.pc = s.pc ∧ w.sp = s.sp

/-- The four skips on registers and immediates (R153 to R156): `PC` moves a further 2, modulo 4096, exactly when the
condition holds; nothing else changes, and none can fault. -/
def Obligations.SkipsAdvanceThePc : Prop :=
  ∀ (x y : RegIdx) (nn : Byte) (s : State),
    exec (.seImm x nn) s = .next { s with pc := if s.reg x = nn then s.pc + 2 else s.pc } ∧
    exec (.sneImm x nn) s = .next { s with pc := if s.reg x ≠ nn then s.pc + 2 else s.pc } ∧
    exec (.seReg x y) s = .next { s with pc := if s.reg x = s.reg y then s.pc + 2 else s.pc } ∧
    exec (.sneReg x y) s = .next { s with pc := if s.reg x ≠ s.reg y then s.pc + 2 else s.pc }

/-- `Bnnn` (R157): `PC` is `nnn + V[0]` reduced to 12 bits; nothing else changes, `VF` included. -/
def Obligations.IndexedJumpAddsV0 : Prop :=
  ∀ (nnn : Addr) (s : State),
    exec (.jpV0 nnn) s = .next { s with pc := BitVec.ofNat 12 (nnn.toNat + (s.reg 0).toNat) }

/-! ### Registers and arithmetic (spec/42_alu.md) -/

/-- `6xnn` and `8xy0` (R171, R173): the value is stored and nothing else changes. -/
def Obligations.LoadsAndCopiesStoreTheValue : Prop :=
  ∀ (x y : RegIdx) (nn : Byte) (s : State),
    (∃ t, exec (.ldImm x nn) s = .next t ∧ writesOnlyReg s t x nn) ∧
    (∃ t, exec (.ldReg x y) s = .next t ∧ writesOnlyReg s t x (s.reg y))

/-- `7xnn` (R172): the sum modulo 256, and `VF` is not written unless `x` names it. -/
def Obligations.AddImmediateWrapsWithoutFlag : Prop :=
  ∀ (x : RegIdx) (nn : Byte) (s : State),
    ∃ t, exec (.addImm x nn) s = .next t ∧ writesOnlyReg s t x (BitVec.ofNat 8 ((s.reg x).toNat + nn.toNat))

/-- `8xy1`, `8xy2`, `8xy3`: OR, AND and XOR bit by bit. That `VF` is not changed unless `x` names it is the spec's own
inference from the table of its source. -/
def Obligations.BitwiseLogicWithoutFlag : Prop :=
  ∀ (x y : RegIdx) (s : State),
    (∃ t, exec (.or x y) s = .next t ∧ writesOnlyReg s t x (t.reg x) ∧
      ∀ k < 8, (t.reg x).getLsbD k = ((s.reg x).getLsbD k || (s.reg y).getLsbD k)) ∧
    (∃ t, exec (.and x y) s = .next t ∧ writesOnlyReg s t x (t.reg x) ∧
      ∀ k < 8, (t.reg x).getLsbD k = ((s.reg x).getLsbD k && (s.reg y).getLsbD k)) ∧
    (∃ t, exec (.xor x y) s = .next t ∧ writesOnlyReg s t x (t.reg x) ∧
      ∀ k < 8, (t.reg x).getLsbD k = ((s.reg x).getLsbD k ^^ (s.reg y).getLsbD k))

/-- `8xy4` (R177): the sum modulo 256 and the carry, flag first and result second, so that with `x = 15` the result stays. That
order is the spec's decision D8 (log 17). -/
def Obligations.AddRegistersSetsTheCarry : Prop :=
  ∀ (x y : RegIdx) (s : State),
    ∃ t, exec (.addReg x y) s = .next t ∧
      writesRegAndFlag s t x (BitVec.ofNat 8 ((s.reg x).toNat + (s.reg y).toNat))
        (decide ((s.reg x).toNat + (s.reg y).toNat > 255))

/-- `8xy5` and `8xy7`: the difference modulo 256 and the no-borrow flag. The flag's meaning is the spec's decision D6, which
its source recommends (log 16); that with `x = 15` the result stays is its decision D8 (log 17). -/
def Obligations.SubtractionsSetNoBorrow : Prop :=
  ∀ (x y : RegIdx) (s : State),
    (∃ t, exec (.sub x y) s = .next t ∧
      writesRegAndFlag s t x (BitVec.ofNat 8 ((s.reg x).toNat + 256 - (s.reg y).toNat))
        (decide ((s.reg y).toNat ≤ (s.reg x).toNat))) ∧
    (∃ t, exec (.subn x y) s = .next t ∧
      writesRegAndFlag s t x (BitVec.ofNat 8 ((s.reg y).toNat + 256 - (s.reg x).toNat))
        (decide ((s.reg x).toNat ≤ (s.reg y).toNat)))

/-- `8xy6` and `8xyE` (R179, R181): one place right or left, the bit shifted out to `VF`; the field `y` makes no
difference. With `x = 15` the result stays in `VF`: the flag comes first, which is the spec's decision D8 (log 17). -/
def Obligations.ShiftsMoveOneBitIntoTheFlag : Prop :=
  ∀ (x y : RegIdx) (s : State),
    (∃ t, exec (.shr x y) s = .next t ∧
      writesRegAndFlag s t x (BitVec.ofNat 8 ((s.reg x).toNat / 2)) ((s.reg x).getLsbD 0)) ∧
    (∃ t, exec (.shl x y) s = .next t ∧
      writesRegAndFlag s t x (BitVec.ofNat 8 ((s.reg x).toNat * 2)) ((s.reg x).getLsbD 7))

/-- `Cxnn`: the result is the byte drawn AND `nn`, so it is 0 wherever `nn` has a 0, and at most `nn`; one draw is used up, and
nothing else changes. The byte drawn is `State.randomByte`, the free value `Config.randomByte` at the number of earlier draws,
of which nothing is known: the statement holds for every value of it (the spec's decision D3; log 3). -/
def Obligations.RandomByteIsMasked : Prop :=
  ∀ (x : RegIdx) (nn : Byte) (s : State),
    s.randomByte = Config.randomByte s.draws ∧
    ∃ t, exec (.rnd x nn) s = .next t ∧ t.reg x = s.randomByte &&& nn ∧ (t.reg x).toNat ≤ nn.toNat ∧
      (∀ k < 8, nn.getLsbD k = false → (t.reg x).getLsbD k = false) ∧ sameRegsBut [x] s t ∧ t.pc = s.pc ∧
      t.draws = s.draws + 1 ∧ sameBut [.draws] s t

/-- Register 15 as an operand of the flag-writing instructions, the cases the spec works out from R177 to R181: with
`x = 15` the result is left in `VF` and the flag is lost. -/
def Obligations.FlagIsLostInRegisterFifteen : Prop :=
  ∀ (y : RegIdx) (s t : State),
    (exec (.addReg 15 y) s = .next t → t.reg 15 = s.reg 15 + s.reg y) ∧
    (exec (.sub 15 y) s = .next t → t.reg 15 = s.reg 15 - s.reg y) ∧
    (exec (.subn 15 y) s = .next t → t.reg 15 = s.reg y - s.reg 15) ∧
    (exec (.shr 15 y) s = .next t → (t.reg 15).toNat = (s.reg 15).toNat / 2) ∧
    (exec (.shl 15 y) s = .next t → (t.reg 15).toNat = (s.reg 15).toNat * 2 % 256) ∧
    (exec (.addReg 15 15) s = .next t → (t.reg 15).toNat = 2 * (s.reg 15).toNat % 256) ∧
    (exec (.sub 15 15) s = .next t → t.reg 15 = 0) ∧
    (exec (.subn 15 15) s = .next t → t.reg 15 = 0)

/-! ### The address register and memory (spec/43_index_memory.md) -/

/-- `Annn`, `Fx1E`, `Fx29` (R200 to R202): the new value of `I`, reduced to 12 bits; nothing else changes, and no memory is
accessed. -/
def Obligations.IndexRegisterIsSetAddedScaled : Prop :=
  ∀ (nnn : Addr) (x : RegIdx) (s : State),
    exec (.ldI nnn) s = .next { s with i := nnn } ∧
    exec (.addI x) s = .next { s with i := BitVec.ofNat 12 (s.i.toNat + (s.reg x).toNat) } ∧
    exec (.ldF x) s = .next { s with i := BitVec.ofNat 12 ((s.reg x).toNat * 5) }

/-- `Fx33`: the hundreds, tens and ones digits of `V[x]` at `I`, `I+1`, `I+2`, and nothing else; from `I = 4094` on it raises
`MemoryBounds` and no byte is written. That the sum is not wrapped is the spec's decision D4 (log 13); the
fault's code and that nothing else changes are its decisions D10 and D11 (log 4, log 19). -/
def Obligations.DecimalDigitsAreStored : Prop :=
  ∀ (x : RegIdx) (s : State),
    (s.i.toNat ≤ 4093 → ∃ t, exec (.ldB x) s = .next t ∧
      (t.mem.read s.i.toNat).toNat = (s.reg x).toNat / 100 ∧
      (t.mem.read (s.i.toNat + 1)).toNat = (s.reg x).toNat / 10 % 10 ∧
      (t.mem.read (s.i.toNat + 2)).toNat = (s.reg x).toNat % 10 ∧
      (∀ a, ¬(s.i.toNat ≤ a ∧ a < s.i.toNat + 3) → t.mem.read a = s.mem.read a) ∧
      sameRegsBut [] s t ∧ t.pc = s.pc ∧ sameBut [.mem] s t) ∧
    (4094 ≤ s.i.toNat → ∃ t, exec (.ldB x) s = .next t ∧ onlyFaulted (.memoryBounds 4096) s t)

/-- `Fx55`: `V[k]` at `I + k` for `k` from 0 to `x`, and nothing else; where the last byte would lie at or above 4096 it raises
`MemoryBounds` and no byte is written. That the sum is not wrapped is the spec's decision D4 (log 13); the
fault's code and that nothing else changes are its decisions D10 and D11 (log 4, log 19). -/
def Obligations.RegistersAreStored : Prop :=
  ∀ (x : RegIdx) (s : State),
    (s.i.toNat + x.toNat < 4096 → ∃ t, exec (.ldMemVx x) s = .next t ∧
      (∀ r : RegIdx, r.toNat ≤ x.toNat → t.mem.read (s.i.toNat + r.toNat) = s.reg r) ∧
      (∀ a, ¬(s.i.toNat ≤ a ∧ a ≤ s.i.toNat + x.toNat) → t.mem.read a = s.mem.read a) ∧
      sameRegsBut [] s t ∧ t.pc = s.pc ∧ sameBut [.mem] s t) ∧
    (4096 ≤ s.i.toNat + x.toNat → ∃ t, exec (.ldMemVx x) s = .next t ∧ onlyFaulted (.memoryBounds 4096) s t)

/-- `Fx65`: `V[k]` from `I + k` for `k` from 0 to `x`, and nothing else; where the last byte would lie at or above 4096 it
raises `MemoryBounds` and no register is written. That the sum is not wrapped is the spec's decision D4 (log 13); the
fault's code and that nothing else changes are its decisions D10 and D11 (log 4, log 19). -/
def Obligations.RegistersAreLoaded : Prop :=
  ∀ (x : RegIdx) (s : State),
    (s.i.toNat + x.toNat < 4096 → ∃ t, exec (.ldVxMem x) s = .next t ∧
      (∀ r : RegIdx, t.reg r = if r.toNat ≤ x.toNat then s.mem.read (s.i.toNat + r.toNat) else s.reg r) ∧
      t.pc = s.pc ∧ sameBut [] s t) ∧
    (4096 ≤ s.i.toNat + x.toNat → ∃ t, exec (.ldVxMem x) s = .next t ∧ onlyFaulted (.memoryBounds 4096) s t)

/-- A load undoes a store: registers stored by `Fx55` come back by `Fx65` from any state with the same memory and the same
`I`. -/
def Obligations.LoadUndoesStore : Prop :=
  ∀ (x : RegIdx) (s t u : State), s.i.toNat + x.toNat < 4096 → exec (.ldMemVx x) s = .next t →
    u.mem = t.mem → u.i = s.i →
    ∃ w, exec (.ldVxMem x) u = .next w ∧ ∀ r : RegIdx, r.toNat ≤ x.toNat → w.reg r = s.reg r

/-- A store is seen by the very next fetch, whichever of its bytes fall on `PC` and `PC + 1`: after `Fx33` or `Fx55` on a running
CORE, where it does not fault, the next step fetches the bytes as the store left them. It executes the word they make or, if
they make no instruction, takes its decode fault. That memory is one writable array is the spec's decision D14 (log 20); the
bounds, the invalid words and the fault record are its decisions D4, D9 and D10 (log 13, log 15, log 4). The fetch at 0xFFF
has a statement of its own. -/
def Obligations.StoreIsSeenByTheNextFetch : Prop :=
  ∀ (i : Instr) (x : RegIdx) (s : State), (i = .ldB x ∨ i = .ldMemVx x) → s.running → s.pc ≠ 0xFFF → faultOf i s = none →
    ∃ t, exec i s = .next t ∧
      (∀ j, decodeWord (byteAfterStore i s s.pc.toNat ++ byteAfterStore i s (s.pc.toNat + 1)) = .ok j →
        step t = exec j { t with pc := s.pc + 2 }) ∧
      (wordWellFormed (byteAfterStore i s s.pc.toNat ++ byteAfterStore i s (s.pc.toNat + 1)) = false →
        step t = .next { t with
          pc := s.pc + 2
          fault := { code := 1, addr := s.pc,
                     word := byteAfterStore i s s.pc.toNat ++ byteAfterStore i s (s.pc.toNat + 1), info := 0 } })

/-! ### The display (spec/44_display.md) -/

/-- `00E0` (R220): every pixel reads off, and nothing but the framebuffer changes. -/
def Obligations.ClearScreenTurnsEveryPixelOff : Prop :=
  ∀ s : State, ∃ t, exec .cls s = .next t ∧ (∀ px py, t.pixel px py = false) ∧
    t.fb.length = s.params.fbW * s.params.fbH ∧ sameRegsBut [] s t ∧ t.pc = s.pc ∧ sameBut [.fb] s t

/-- `Dxyn` is the XOR of the framebuffer with the wrapped sprite, and the collision flag says whether a lit pixel lay under a
set bit; where the sprite's last byte would lie at or above 4096 it raises `MemoryBounds` and changes neither. The order of the
pixels makes no difference. Sprite geometry, wrapped write and bound are the spec's decisions D20, D7 and D4 (log 11,
log 16, log 13); the fault's code and that nothing else changes are its decisions D10 and D11 (log 4, log 19). -/
def Obligations.DrawIsXorWithTheWrappedSprite : Prop :=
  ∀ (x y : RegIdx) (n : Nibble) (s : State), s.Inv →
    (n.toNat = 0 ∨ s.i.toNat + n.toNat ≤ 4096 → ∃ t, exec (.drw x y n) s = .next t ∧
      (∀ px < s.params.fbW, ∀ py < s.params.fbH,
        (t.pixel px py = true ↔ ¬(s.pixel px py = true ↔ spriteCovers s (s.reg x) (s.reg y) n px py))) ∧
      (spriteCollides s (s.reg x) (s.reg y) n → t.reg 15 = 1) ∧
      (¬spriteCollides s (s.reg x) (s.reg y) n → t.reg 15 = 0) ∧
      sameRegsBut [15] s t ∧ t.pc = s.pc ∧ sameBut [.fb] s t) ∧
    (1 ≤ n.toNat → 4096 ≤ s.i.toNat + n.toNat - 1 → ∃ t, exec (.drw x y n) s = .next t ∧ onlyFaulted (.memoryBounds 4096) s t)

/-- A sprite of no rows: no pixel changes, `VF` is 0, and it cannot fault whatever `I` is (R222 (a), which the spec derives). -/
def Obligations.DrawOfNoRowsClearsTheFlag : Prop :=
  ∀ (x y : RegIdx) (s : State), ∃ t, exec (.drw x y 0) s = .next t ∧ t.fb = s.fb ∧ t.reg 15 = 0 ∧
    sameRegsBut [15] s t ∧ t.pc = s.pc ∧ sameBut [] s t

/-- Drawing the same sprite at the same place twice restores the framebuffer (R222 (f), which the spec derives); `x` and `y` are
not 15, since the first draw writes `VF`. -/
def Obligations.DrawingTwiceRestoresTheScreen : Prop :=
  ∀ (x y : RegIdx) (n : Nibble) (s t u : State), s.Inv → x ≠ 15 → y ≠ 15 →
    (n.toNat = 0 ∨ s.i.toNat + n.toNat ≤ 4096) → exec (.drw x y n) s = .next t → exec (.drw x y n) t = .next u →
    u.fb = s.fb

/-! ### Keypad and timers (spec/45_keypad_timers.md) -/

/-- `Ex9E` and `ExA1`: `PC` moves a further 2 when the key `V[x]` is held, or is not; an index above 15 raises
`KeyIndexBounds`. That the index is not masked is the spec's decision D5 (log 14); the fault's code and that nothing
else changes are its decisions D10 and D11 (log 4, log 19). -/
def Obligations.KeySkipsTestTheNamedKey : Prop :=
  ∀ (x : RegIdx) (s : State),
    ((s.reg x).toNat ≤ 15 →
      exec (.skp x) s = .next { s with pc := if s.keys.getLsbD (s.reg x).toNat then s.pc + 2 else s.pc } ∧
      exec (.sknp x) s = .next { s with pc := if s.keys.getLsbD (s.reg x).toNat then s.pc else s.pc + 2 }) ∧
    (15 < (s.reg x).toNat →
      (∃ t, exec (.skp x) s = .next t ∧ onlyFaulted (.keyIndexBounds (s.reg x)) s t) ∧ (∃ t, exec (.sknp x) s = .next t ∧ onlyFaulted (.keyIndexBounds (s.reg x)) s t))

/-- `Fx07`, `Fx15`, `Fx18` (R242, R245, R246): a timer is read or set, and nothing else changes. -/
def Obligations.TimersAreReadAndSet : Prop :=
  ∀ (x : RegIdx) (s : State),
    (∃ t, exec (.ldVxDt x) s = .next t ∧ writesOnlyReg s t x s.dt) ∧
    exec (.ldDtVx x) s = .next { s with dt := s.reg x } ∧
    exec (.ldStVx x) s = .next { s with st := s.reg x }

/-- `Fx0A` (R244): it sets `WAIT` and `WAITREG` and nothing else; from then on a step does nothing and a tick still works,
until an `update_input` with a newly pressed key puts the lowest such key in `V[x]` and clears `WAIT`, `PC` staying at
`pc1`. -/
def Obligations.KeyWaitHoldsUntilAPress : Prop :=
  ∀ (x : RegIdx) (s : State), s.running →
    ∃ t, exec (.ldVxK x) s = .next t ∧ t = { s with wait := true, waitReg := x } ∧ step t = .next t ∧
      t.tickTimers = { t with dt := BitVec.ofNat 8 (s.dt.toNat - 1), st := BitVec.ofNat 8 (s.st.toNat - 1) } ∧
      (∀ bitmap : BitVec 16, bitmap &&& ~~~s.keys = 0 → t.updateInput bitmap = { t with keys := bitmap }) ∧
      (∀ (bitmap : BitVec 16) (k : Nat), k < 16 → (bitmap &&& ~~~s.keys).getLsbD k = true →
        (∀ j < k, (bitmap &&& ~~~s.keys).getLsbD j = false) →
        (t.updateInput bitmap).reg x = BitVec.ofNat 8 k ∧ (t.updateInput bitmap).wait = false ∧
        (t.updateInput bitmap).pc = s.pc)

/-! ### The host's operations (spec/40_step_cycle_and_host_ops.md, spec/70_reset_and_hazards.md) -/

/-- `update_input` (R130): on a FAULTED CORE nothing; else `KEYS` is the bitmap; a wait ends exactly when a key goes from
released to held, and then `V[WAITREG]` is the lowest such key; nothing else changes. That a
FAULTED CORE ignores the operation is the spec's decision D10 (log 4). -/
def Obligations.UpdateInputDeliversTheLowestNewKey : Prop :=
  ∀ (s : State) (bitmap : BitVec 16),
    (s.fault.code ≠ 0 → s.updateInput bitmap = s) ∧
    (s.fault.code = 0 → (s.wait = false ∨ bitmap &&& ~~~s.keys = 0) →
      s.updateInput bitmap = { s with keys := bitmap }) ∧
    (s.fault.code = 0 → s.wait = true → bitmap &&& ~~~s.keys ≠ 0 →
      ∃ k < 16, (bitmap &&& ~~~s.keys).getLsbD k = true ∧ (∀ j < k, (bitmap &&& ~~~s.keys).getLsbD j = false) ∧
        (s.updateInput bitmap).reg s.waitReg = BitVec.ofNat 8 k ∧ sameRegsBut [s.waitReg] s (s.updateInput bitmap) ∧
        (s.updateInput bitmap).wait = false ∧ (s.updateInput bitmap).keys = bitmap ∧
        (s.updateInput bitmap).pc = s.pc ∧ sameBut [.wait, .keys] s (s.updateInput bitmap))

/-- `n` ticks take `n` from each timer, never below 0, whether or not the CORE waits, and change nothing else. A FAULTED
CORE is left to `FaultedIsTerminal` (the spec's decision D10). -/
def Obligations.TicksCountDownToZero : Prop :=
  ∀ (n : Nat) (s : State), s.fault.code = 0 →
    s.applyAll (List.replicate n .tickTimers) =
      .next { s with dt := BitVec.ofNat 8 (s.dt.toNat - n), st := BitVec.ofNat 8 (s.st.toNat - n) }

/-- Within one `run` the keys do not change, a set `WAIT` does not clear, and `run(n)` always ends in a next state; a waiting
CORE's run changes nothing. That it ends in a next state also when a step faults, the remaining steps doing nothing, is the
spec's decision D19 (log 24), a consequence of its decision D10 (log 4). -/
def Obligations.RunKeepsKeysAndWait : Prop :=
  ∀ (n : Nat) (s : State), ∃ t, Machine.run n s = .next t ∧ t.keys = s.keys ∧ t.params = s.params ∧
    (s.wait = true → t = s)

/-- `create` (R301): a longer image is refused; an image of at most 3584 bytes is accepted; every register, the stack, the
timers, the keys, the wait state and the fault record are 0, the display is off, `PC` is 512; memory holds the font at 0, the
image at 512, and 0 elsewhere; with an image of length 0 the first step raises `DecodeFault(0x200, 0x0000)`. That
`I`, `KEYS`, `WAITREG` and `FAULT` are 0 is the spec's decisions D13 and D10 (log 6), and the first step's record its decision
D10 (log 4). -/
def Obligations.CreateLoadsFontAndImage : Prop :=
  ∀ (p : Params) (draws : Nat) (image : List Byte), p.wellFormed = true →
    (3584 < image.length → Machine.create p draws image = .refused .programTooLarge) ∧
    (image.length ≤ 3584 → ∃ t, Machine.create p draws image = .next t ∧
      (∀ r, t.reg r = 0) ∧ t.i = 0 ∧ (∀ k : Fin 16, t.stack[k.val] = 0) ∧ t.sp.val = 0 ∧ t.dt = 0 ∧ t.st = 0 ∧
      (∀ px < p.fbW, ∀ py < p.fbH, t.pixel px py = false) ∧ t.keys = 0 ∧ t.wait = false ∧ t.waitReg = 0 ∧
      t.fault = { code := 0, addr := 0, word := 0, info := 0 } ∧ t.pc = 512 ∧
      (∀ a < 80, t.mem.read a = p.font.getD a 0) ∧
      (∀ k < image.length, t.mem.read (512 + k) = image.getD k 0) ∧
      (∀ a < 4096, 80 ≤ a → ¬(512 ≤ a ∧ a < 512 + image.length) → t.mem.read a = 0) ∧
      (image.length = 0 →
        step t = .next { t with pc := 0x202, fault := { code := 1, addr := 0x200, word := 0, info := 0 } }))

/-- An oversized image (R302): `create` yields no CORE state at all, whatever CORE there was before, and no operation may
follow it. That nothing is defined of an earlier CORE afterwards is the spec's decision D22 (log 21). -/
def Obligations.OversizedImageIsRefused : Prop :=
  ∀ image : List Byte, 3584 < image.length →
    (∀ (p : Params) (draws : Nat), Machine.create p draws image = .refused .programTooLarge) ∧
    ∀ (s : State) (ops : List HostOp) (t : State), s.applyAll (.create image :: ops) ≠ .next t

/-- The reset values of the spec's table. Those of `I`, `KEYS`, `WAITREG` and `FAULT` are the spec's decisions D13 and D10 (log 6);
the display size and the font are the defaults D1 and D2 (log 1, log 2). -/
def Obligations.ResetHoldsTheTabledValues : Prop :=
  (∀ r, State.reset.reg r = 0) ∧ State.reset.i = 0 ∧ State.reset.pc = 0x200 ∧
  (∀ k : Fin 16, State.reset.stack[k.val] = 0) ∧ State.reset.sp.val = 0 ∧ State.reset.dt = 0 ∧ State.reset.st = 0 ∧
  State.reset.keys = 0 ∧ State.reset.wait = false ∧ State.reset.waitReg = 0 ∧
  State.reset.fault = { code := 0, addr := 0, word := 0, info := 0 } ∧ State.reset.running ∧
  (∀ px py, State.reset.pixel px py = false) ∧
  (∀ a < 80, State.reset.mem.read a = defaultFont.getD a 0) ∧ (∀ a, 80 ≤ a → State.reset.mem.read a = 0)

/-- The reset state is the state after `create` with an empty image and the default parameters (R38, R301; the defaults are
the spec's decisions D1 and D2, log 1 and log 2, and the draw counter's start the model's, log 7). -/
def Obligations.ResetIsCreateOfTheEmptyImage : Prop :=
  Machine.create defaultParams 0 [] = .next State.reset

/-- The framebuffer read (R132): `FB_W * FB_H` values, pixel `(x, y)` at index `y * FB_W + x`, and no state changes.
The index and the meaning of on are the spec's decision D21 (log 12). -/
def Obligations.FramebufferReadIsRowMajor : Prop :=
  ∀ s : State, s.apply .readFramebuffer = .next s ∧
    s.readFramebuffer.length = s.params.fbW * s.params.fbH ∧
    ∀ px < s.params.fbW, ∀ py < s.params.fbH, s.readFramebuffer[py * s.params.fbW + px]? = some (s.pixel px py)

/-! ### Frames (spec/10_state.md R39): what each shape of instruction leaves alone -/

/-- Register-only instructions: loads, copies, logic and `Fx07` change `V[x]` alone; the flag-writing five change `V[x]` and
`VF`; `Cxnn` changes `V[x]` and uses up a draw. Every other piece of state, and every byte of memory, is as before. -/
def Obligations.ArithmeticFrame : Prop :=
  ∀ (x y : RegIdx) (nn : Byte) (s t : State),
    (∀ i ∈ ([.ldImm x nn, .addImm x nn, .ldReg x y, .or x y, .and x y, .xor x y, .ldVxDt x] : List Instr),
      exec i s = .next t → sameRegsBut [x] s t ∧ sameBut [] s t) ∧
    (∀ i ∈ ([.addReg x y, .sub x y, .shr x y, .subn x y, .shl x y] : List Instr),
      exec i s = .next t → sameRegsBut [x, 15] s t ∧ sameBut [] s t) ∧
    (exec (.rnd x nn) s = .next t → sameRegsBut [x] s t ∧ sameBut [.draws] s t)

/-- Control flow: jumps and the four register skips change `PC` alone; `00EE` changes `SP`, `2nnn` changes `SP` and the one slot
`STACK[SP]`, and the key skips change nothing more; where one faults, the fault record. No register and no byte of memory
changes. The record and the state after a fault are the spec's decisions D10 and D11 (log 4, log 19). -/
def Obligations.ControlFlowFrame : Prop :=
  ∀ (x y : RegIdx) (nn : Byte) (nnn : Addr) (s t : State),
    (∀ i ∈ ([.jp nnn, .jpV0 nnn, .seImm x nn, .sneImm x nn, .seReg x y, .sneReg x y] : List Instr),
      exec i s = .next t → sameRegsBut [] s t ∧ sameBut [] s t) ∧
    (∀ i ∈ ([.skp x, .sknp x] : List Instr), exec i s = .next t → sameRegsBut [] s t ∧ sameBut [.fault] s t) ∧
    (exec .ret s = .next t → sameRegsBut [] s t ∧ sameBut [.sp, .fault] s t) ∧
    (exec (.call nnn) s = .next t → sameRegsBut [] s t ∧ sameBut [.stack, .sp, .fault] s t ∧
      ∀ k : Fin 16, k.val ≠ s.sp.val → t.stack[k.val] = s.stack[k.val])

/-- The address register, the timers and the wait: `Annn`, `Fx1E`, `Fx29` change `I` alone; `Fx15` changes `DT` alone, `Fx18`
`ST` alone, `Fx0A` `WAIT` and `WAITREG` alone. No register and no byte of memory changes. -/
def Obligations.IndexTimerWaitFrame : Prop :=
  ∀ (x : RegIdx) (nnn : Addr) (s t : State),
    (∀ i ∈ ([.ldI nnn, .addI x, .ldF x] : List Instr),
      exec i s = .next t → sameRegsBut [] s t ∧ sameBut [.i] s t) ∧
    (exec (.ldDtVx x) s = .next t → sameRegsBut [] s t ∧ sameBut [.dt] s t) ∧
    (exec (.ldStVx x) s = .next t → sameRegsBut [] s t ∧ sameBut [.st] s t) ∧
    (exec (.ldVxK x) s = .next t → sameRegsBut [] s t ∧ sameBut [.wait, .waitReg] s t)

/-- The storing instructions: `Fx33` changes the 3 bytes from `I` (`State.base`), `Fx55` the `x + 1` bytes from `I`; every other
byte, every register, `I` and every other piece of state are as before (where one faults, the fault record changes and no
byte does, which is the spec's decisions D10 and D11, log 4 and log 19). -/
def Obligations.StoreFrame : Prop :=
  ∀ (x : RegIdx) (s t : State),
    (exec (.ldB x) s = .next t →
      (∀ a, ¬(s.base ≤ a ∧ a < s.base + 3) → t.mem.read a = s.mem.read a) ∧ sameRegsBut [] s t ∧
      sameBut [.mem, .fault] s t ∧ (t.fault ≠ s.fault → ∀ a, t.mem.read a = s.mem.read a)) ∧
    (exec (.ldMemVx x) s = .next t →
      (∀ a, ¬(s.base ≤ a ∧ a < s.base + rangeLength x) → t.mem.read a = s.mem.read a) ∧ sameRegsBut [] s t ∧
      sameBut [.mem, .fault] s t ∧ (t.fault ≠ s.fault → ∀ a, t.mem.read a = s.mem.read a))

/-- `Fx65`: registers above `x`, every byte of memory, `I` and every other piece of state are as before (where it faults, the
fault record changes and no register does, which is the spec's decisions D10 and D11, log 4 and log 19). -/
def Obligations.LoadFrame : Prop :=
  ∀ (x : RegIdx) (s t : State), exec (.ldVxMem x) s = .next t →
    (∀ r : RegIdx, x.toNat < r.toNat → t.reg r = s.reg r) ∧ sameBut [.fault] s t ∧
    (t.fault ≠ s.fault → sameRegsBut [] s t)

/-- The display instructions: `00E0` changes the framebuffer alone; `Dxyn` the framebuffer and `VF` (where it faults, the fault
record and neither of them, which is the spec's decisions D10 and D11, log 4 and log 19). Every byte of memory, `I` and every
other piece of state are as before. -/
def Obligations.DisplayFrame : Prop :=
  ∀ (x y : RegIdx) (n : Nibble) (s t : State),
    (exec .cls s = .next t → sameRegsBut [] s t ∧ sameBut [.fb] s t) ∧
    (exec (.drw x y n) s = .next t → sameRegsBut [15] s t ∧ sameBut [.fb, .fault] s t ∧
      (t.fault ≠ s.fault → t.fb = s.fb ∧ sameRegsBut [] s t))
end

