-- ==== Sys2Proof/Laws/Memory.lean ====
section
/-! SUPPORT. What the memory operations do: a read after a write, and the canonical form they keep. -/

namespace Sys2Proof.Machine

/-! ### Reads -/

theorem Memory.read_dropCell_self (m : Memory) (a : Nat) : (m.dropCell a).read a = resetByte a := by
  induction m with
  | nil => rfl
  | cons c m ih =>
    by_cases h : c.1 = a
    · simpa [Memory.dropCell, h] using ih
    · simp only [Memory.dropCell, List.filter_cons, ne_eq, h, not_false_eq_true, decide_true, if_true, Memory.read,
        if_false]
      exact ih

theorem Memory.read_dropCell_of_ne (m : Memory) {a k : Nat} (h : k ≠ a) : (m.dropCell a).read k = m.read k := by
  induction m with
  | nil => rfl
  | cons c m ih =>
    by_cases hc : c.1 = a
    · have : c.1 ≠ k := fun e => h (e ▸ hc)
      simpa [Memory.dropCell, hc, Memory.read, h.symm] using ih
    · simp only [Memory.dropCell, List.filter_cons, ne_eq, hc, not_false_eq_true, decide_true, if_true, Memory.read]
      split
      · rfl
      · exact ih

theorem Memory.read_putCell_self (m : Memory) (a : Nat) (b : Byte) (h : ∀ c ∈ m, c.1 ≠ a) :
    (m.putCell a b).read a = b := by
  induction m with
  | nil => simp [Memory.putCell, Memory.read]
  | cons c m ih =>
    simp only [Memory.putCell]
    split
    · simp [Memory.read]
    · simp [Memory.read, h c (by simp), ih fun d hd => h d (by simp [hd])]

theorem Memory.read_putCell_of_ne (m : Memory) {a k : Nat} (b : Byte) (h : k ≠ a) :
    (m.putCell a b).read k = m.read k := by
  induction m with
  | nil => simp [Memory.putCell, Memory.read, h.symm]
  | cons c m ih =>
    simp only [Memory.putCell]
    split
    · simp [Memory.read, h.symm]
    · simp [Memory.read, ih]

theorem Memory.not_mem_dropCell (m : Memory) (a : Nat) : ∀ c ∈ m.dropCell a, c.1 ≠ a := by
  intro c hc
  simpa using (List.mem_filter.mp hc).2

/-- A read of the address just written gives the byte written. -/
@[simp] theorem Memory.read_write_self (m : Memory) (a : Nat) (b : Byte) : (m.write a b).read a = b := by
  unfold Memory.write
  split
  · rw [Memory.read_dropCell_self]; symm; assumption
  · exact Memory.read_putCell_self _ _ _ (m.not_mem_dropCell a)

/-- A write leaves every other address alone (R67). -/
theorem Memory.read_write_of_ne (m : Memory) {a k : Nat} (b : Byte) (h : k ≠ a) :
    (m.write a b).read k = m.read k := by
  unfold Memory.write
  split
  · exact m.read_dropCell_of_ne h
  · rw [Memory.read_putCell_of_ne _ b h, m.read_dropCell_of_ne h]

theorem Memory.read_write (m : Memory) (a k : Nat) (b : Byte) :
    (m.write a b).read k = if k = a then b else m.read k := by
  split
  · subst k; simp
  · exact m.read_write_of_ne b (by assumption)

/-- What a list of bytes stored from `a` on leaves at every address. -/
theorem Memory.read_writeList (bs : List Byte) (m : Memory) (a k : Nat) :
    (m.writeList a bs).read k = if h : a ≤ k ∧ k < a + bs.length then bs[k - a]'(by omega) else m.read k := by
  induction bs generalizing m a with
  | nil =>
    have : ¬(a ≤ k ∧ k < a) := by omega
    simp [Memory.writeList, this]
  | cons b bs ih =>
    simp only [Memory.writeList, ih, Memory.read_write, List.length_cons]
    by_cases hk : k = a
    · subst k
      have h1 : ¬(a + 1 ≤ a ∧ a < a + 1 + bs.length) := by omega
      have h2 : a ≤ a ∧ a < a + (bs.length + 1) := by omega
      simp [h2]
    · by_cases h1 : a + 1 ≤ k ∧ k < a + 1 + bs.length
      · have h2 : a ≤ k ∧ k < a + (bs.length + 1) := by omega
        have h3 : k - a = (k - (a + 1)) + 1 := by omega
        simp [h1, h2, h3]
      · have h2 : ¬(a ≤ k ∧ k < a + (bs.length + 1)) := by omega
        simp only [dif_neg h1, dif_neg h2, if_neg hk]

/-! ### The canonical form -/

theorem Memory.risingFrom_mono {m : Memory} {lo lo' : Nat} (h : m.risingFrom lo = true) (hl : lo' ≤ lo) :
    m.risingFrom lo' = true := by
  cases m with
  | nil => rfl
  | cons c m =>
    simp only [Memory.risingFrom, Bool.and_eq_true, decide_eq_true_eq] at h ⊢
    exact ⟨by omega, h.2⟩

theorem Memory.risingFrom_dropCell {m : Memory} {lo : Nat} (a : Nat) (h : m.risingFrom lo = true) :
    (m.dropCell a).risingFrom lo = true := by
  induction m generalizing lo with
  | nil => rfl
  | cons c m ih =>
    simp only [Memory.risingFrom, Bool.and_eq_true, decide_eq_true_eq] at h
    by_cases hc : c.1 = a
    · have := Memory.risingFrom_mono (ih h.2) (show lo ≤ c.1 + 1 by omega)
      simpa [Memory.dropCell, hc] using this
    · have : Memory.dropCell (c :: m) a = c :: Memory.dropCell m a := by simp [Memory.dropCell, hc]
      rw [this]
      simp [Memory.risingFrom, h.1, ih h.2]

theorem Memory.risingFrom_putCell {m : Memory} {lo a : Nat} (b : Byte) (h : m.risingFrom lo = true) (ha : lo ≤ a)
    (hm : ∀ c ∈ m, c.1 ≠ a) : (m.putCell a b).risingFrom lo = true := by
  induction m generalizing lo with
  | nil => simp [Memory.putCell, Memory.risingFrom, ha]
  | cons c m ih =>
    simp only [Memory.risingFrom, Bool.and_eq_true, decide_eq_true_eq] at h
    have hne := hm c (by simp)
    simp only [Memory.putCell]
    split
    · simp only [Memory.risingFrom, Bool.and_eq_true, decide_eq_true_eq]
      exact ⟨ha, by omega, h.2⟩
    · simp only [Memory.risingFrom, Bool.and_eq_true, decide_eq_true_eq]
      exact ⟨h.1, ih h.2 (by omega) fun d hd => hm d (by simp [hd])⟩

theorem Memory.mem_putCell {m : Memory} {a : Nat} {b : Byte} {c : Host.Cell} (h : c ∈ m.putCell a b) :
    c = (a, b) ∨ c ∈ m := by
  induction m with
  | nil => simpa [Memory.putCell] using h
  | cons d m ih =>
    simp only [Memory.putCell] at h
    split at h
    · simpa using h
    · rcases List.mem_cons.mp h with rfl | h
      · simp
      · rcases ih h with rfl | h <;> simp_all

/-- Empty memory is in canonical form. -/
theorem Memory.wf_nil : Memory.wf [] = true := rfl

/-- A write below 4096 keeps the canonical form. -/
theorem Memory.wf_write {m : Memory} {a : Nat} (b : Byte) (h : m.wf = true) (ha : a < memSize) :
    (m.write a b).wf = true := by
  simp only [Memory.wf, Bool.and_eq_true, List.all_eq_true, decide_eq_true_eq] at h ⊢
  have erased : ∀ c ∈ m.dropCell a, c.1 < memSize ∧ c.2 ≠ resetByte c.1 := fun c hc =>
    h.2 c (List.mem_filter.mp hc).1
  unfold Memory.write
  split
  · exact ⟨Memory.risingFrom_dropCell a h.1, erased⟩
  · refine ⟨Memory.risingFrom_putCell b (Memory.risingFrom_dropCell a h.1) (Nat.zero_le a) (m.not_mem_dropCell a), ?_⟩
    intro c hc
    rcases Memory.mem_putCell hc with rfl | hc
    · exact ⟨ha, by assumption⟩
    · exact erased c hc

/-- Storing a list of bytes below 4096 keeps the canonical form. -/
theorem Memory.wf_writeList {bs : List Byte} {m : Memory} {a : Nat} (h : m.wf = true)
    (ha : a + bs.length ≤ memSize) : (m.writeList a bs).wf = true := by
  induction bs generalizing m a with
  | nil => exact h
  | cons b bs ih =>
    simp only [List.length_cons] at ha
    exact ih (Memory.wf_write b h (by omega)) (by omega)

/-- Memory at reset lists nothing and is in canonical form. -/
theorem State.reset_mem_wf : State.reset.mem.wf = true := rfl

end Sys2Proof.Machine
end

