-- ==== Sys2Proof/Laws/State.lean ====
section
/-! SUPPORT. One lemma per field per update of State: what each named update leaves in each field. -/

namespace Sys2Proof.Machine

variable (s : State)

/-! ### setReg -/

@[simp] theorem State.setReg_v (x : RegIdx) (b : Byte) : (s.setReg x b).v = s.v.set x.toNat b x.isLt := rfl
@[simp] theorem State.setReg_i (x : RegIdx) (b : Byte) : (s.setReg x b).i = s.i := rfl
@[simp] theorem State.setReg_pc (x : RegIdx) (b : Byte) : (s.setReg x b).pc = s.pc := rfl
@[simp] theorem State.setReg_mem (x : RegIdx) (b : Byte) : (s.setReg x b).mem = s.mem := rfl
@[simp] theorem State.setReg_stack (x : RegIdx) (b : Byte) : (s.setReg x b).stack = s.stack := rfl
@[simp] theorem State.setReg_sp (x : RegIdx) (b : Byte) : (s.setReg x b).sp = s.sp := rfl
@[simp] theorem State.setReg_dt (x : RegIdx) (b : Byte) : (s.setReg x b).dt = s.dt := rfl
@[simp] theorem State.setReg_st (x : RegIdx) (b : Byte) : (s.setReg x b).st = s.st := rfl
@[simp] theorem State.setReg_fb (x : RegIdx) (b : Byte) : (s.setReg x b).fb = s.fb := rfl
@[simp] theorem State.setReg_keys (x : RegIdx) (b : Byte) : (s.setReg x b).keys = s.keys := rfl
@[simp] theorem State.setReg_wait (x : RegIdx) (b : Byte) : (s.setReg x b).wait = s.wait := rfl
@[simp] theorem State.setReg_waitReg (x : RegIdx) (b : Byte) : (s.setReg x b).waitReg = s.waitReg := rfl
@[simp] theorem State.setReg_fault (x : RegIdx) (b : Byte) : (s.setReg x b).fault = s.fault := rfl
@[simp] theorem State.setReg_params (x : RegIdx) (b : Byte) : (s.setReg x b).params = s.params := rfl
@[simp] theorem State.setReg_draws (x : RegIdx) (b : Byte) : (s.setReg x b).draws = s.draws := rfl

/-! ### setI -/

@[simp] theorem State.setI_v (a : Addr) : (s.setI a).v = s.v := rfl
@[simp] theorem State.setI_i (a : Addr) : (s.setI a).i = a := rfl
@[simp] theorem State.setI_pc (a : Addr) : (s.setI a).pc = s.pc := rfl
@[simp] theorem State.setI_mem (a : Addr) : (s.setI a).mem = s.mem := rfl
@[simp] theorem State.setI_stack (a : Addr) : (s.setI a).stack = s.stack := rfl
@[simp] theorem State.setI_sp (a : Addr) : (s.setI a).sp = s.sp := rfl
@[simp] theorem State.setI_dt (a : Addr) : (s.setI a).dt = s.dt := rfl
@[simp] theorem State.setI_st (a : Addr) : (s.setI a).st = s.st := rfl
@[simp] theorem State.setI_fb (a : Addr) : (s.setI a).fb = s.fb := rfl
@[simp] theorem State.setI_keys (a : Addr) : (s.setI a).keys = s.keys := rfl
@[simp] theorem State.setI_wait (a : Addr) : (s.setI a).wait = s.wait := rfl
@[simp] theorem State.setI_waitReg (a : Addr) : (s.setI a).waitReg = s.waitReg := rfl
@[simp] theorem State.setI_fault (a : Addr) : (s.setI a).fault = s.fault := rfl
@[simp] theorem State.setI_params (a : Addr) : (s.setI a).params = s.params := rfl
@[simp] theorem State.setI_draws (a : Addr) : (s.setI a).draws = s.draws := rfl
@[simp] theorem State.setI_reg (a : Addr) (r : RegIdx) : (s.setI a).reg r = s.reg r := rfl

/-! ### setPc -/

@[simp] theorem State.setPc_v (a : Addr) : (s.setPc a).v = s.v := rfl
@[simp] theorem State.setPc_i (a : Addr) : (s.setPc a).i = s.i := rfl
@[simp] theorem State.setPc_pc (a : Addr) : (s.setPc a).pc = a := rfl
@[simp] theorem State.setPc_mem (a : Addr) : (s.setPc a).mem = s.mem := rfl
@[simp] theorem State.setPc_stack (a : Addr) : (s.setPc a).stack = s.stack := rfl
@[simp] theorem State.setPc_sp (a : Addr) : (s.setPc a).sp = s.sp := rfl
@[simp] theorem State.setPc_dt (a : Addr) : (s.setPc a).dt = s.dt := rfl
@[simp] theorem State.setPc_st (a : Addr) : (s.setPc a).st = s.st := rfl
@[simp] theorem State.setPc_fb (a : Addr) : (s.setPc a).fb = s.fb := rfl
@[simp] theorem State.setPc_keys (a : Addr) : (s.setPc a).keys = s.keys := rfl
@[simp] theorem State.setPc_wait (a : Addr) : (s.setPc a).wait = s.wait := rfl
@[simp] theorem State.setPc_waitReg (a : Addr) : (s.setPc a).waitReg = s.waitReg := rfl
@[simp] theorem State.setPc_fault (a : Addr) : (s.setPc a).fault = s.fault := rfl
@[simp] theorem State.setPc_params (a : Addr) : (s.setPc a).params = s.params := rfl
@[simp] theorem State.setPc_draws (a : Addr) : (s.setPc a).draws = s.draws := rfl
@[simp] theorem State.setPc_reg (a : Addr) (r : RegIdx) : (s.setPc a).reg r = s.reg r := rfl

/-! ### setMem -/

@[simp] theorem State.setMem_v (m : Memory) : (s.setMem m).v = s.v := rfl
@[simp] theorem State.setMem_i (m : Memory) : (s.setMem m).i = s.i := rfl
@[simp] theorem State.setMem_pc (m : Memory) : (s.setMem m).pc = s.pc := rfl
@[simp] theorem State.setMem_mem (m : Memory) : (s.setMem m).mem = m := rfl
@[simp] theorem State.setMem_stack (m : Memory) : (s.setMem m).stack = s.stack := rfl
@[simp] theorem State.setMem_sp (m : Memory) : (s.setMem m).sp = s.sp := rfl
@[simp] theorem State.setMem_dt (m : Memory) : (s.setMem m).dt = s.dt := rfl
@[simp] theorem State.setMem_st (m : Memory) : (s.setMem m).st = s.st := rfl
@[simp] theorem State.setMem_fb (m : Memory) : (s.setMem m).fb = s.fb := rfl
@[simp] theorem State.setMem_keys (m : Memory) : (s.setMem m).keys = s.keys := rfl
@[simp] theorem State.setMem_wait (m : Memory) : (s.setMem m).wait = s.wait := rfl
@[simp] theorem State.setMem_waitReg (m : Memory) : (s.setMem m).waitReg = s.waitReg := rfl
@[simp] theorem State.setMem_fault (m : Memory) : (s.setMem m).fault = s.fault := rfl
@[simp] theorem State.setMem_params (m : Memory) : (s.setMem m).params = s.params := rfl
@[simp] theorem State.setMem_draws (m : Memory) : (s.setMem m).draws = s.draws := rfl
@[simp] theorem State.setMem_reg (m : Memory) (r : RegIdx) : (s.setMem m).reg r = s.reg r := rfl

/-! ### setDt -/

@[simp] theorem State.setDt_v (b : Byte) : (s.setDt b).v = s.v := rfl
@[simp] theorem State.setDt_i (b : Byte) : (s.setDt b).i = s.i := rfl
@[simp] theorem State.setDt_pc (b : Byte) : (s.setDt b).pc = s.pc := rfl
@[simp] theorem State.setDt_mem (b : Byte) : (s.setDt b).mem = s.mem := rfl
@[simp] theorem State.setDt_stack (b : Byte) : (s.setDt b).stack = s.stack := rfl
@[simp] theorem State.setDt_sp (b : Byte) : (s.setDt b).sp = s.sp := rfl
@[simp] theorem State.setDt_dt (b : Byte) : (s.setDt b).dt = b := rfl
@[simp] theorem State.setDt_st (b : Byte) : (s.setDt b).st = s.st := rfl
@[simp] theorem State.setDt_fb (b : Byte) : (s.setDt b).fb = s.fb := rfl
@[simp] theorem State.setDt_keys (b : Byte) : (s.setDt b).keys = s.keys := rfl
@[simp] theorem State.setDt_wait (b : Byte) : (s.setDt b).wait = s.wait := rfl
@[simp] theorem State.setDt_waitReg (b : Byte) : (s.setDt b).waitReg = s.waitReg := rfl
@[simp] theorem State.setDt_fault (b : Byte) : (s.setDt b).fault = s.fault := rfl
@[simp] theorem State.setDt_params (b : Byte) : (s.setDt b).params = s.params := rfl
@[simp] theorem State.setDt_draws (b : Byte) : (s.setDt b).draws = s.draws := rfl
@[simp] theorem State.setDt_reg (b : Byte) (r : RegIdx) : (s.setDt b).reg r = s.reg r := rfl

/-! ### setSt -/

@[simp] theorem State.setSt_v (b : Byte) : (s.setSt b).v = s.v := rfl
@[simp] theorem State.setSt_i (b : Byte) : (s.setSt b).i = s.i := rfl
@[simp] theorem State.setSt_pc (b : Byte) : (s.setSt b).pc = s.pc := rfl
@[simp] theorem State.setSt_mem (b : Byte) : (s.setSt b).mem = s.mem := rfl
@[simp] theorem State.setSt_stack (b : Byte) : (s.setSt b).stack = s.stack := rfl
@[simp] theorem State.setSt_sp (b : Byte) : (s.setSt b).sp = s.sp := rfl
@[simp] theorem State.setSt_dt (b : Byte) : (s.setSt b).dt = s.dt := rfl
@[simp] theorem State.setSt_st (b : Byte) : (s.setSt b).st = b := rfl
@[simp] theorem State.setSt_fb (b : Byte) : (s.setSt b).fb = s.fb := rfl
@[simp] theorem State.setSt_keys (b : Byte) : (s.setSt b).keys = s.keys := rfl
@[simp] theorem State.setSt_wait (b : Byte) : (s.setSt b).wait = s.wait := rfl
@[simp] theorem State.setSt_waitReg (b : Byte) : (s.setSt b).waitReg = s.waitReg := rfl
@[simp] theorem State.setSt_fault (b : Byte) : (s.setSt b).fault = s.fault := rfl
@[simp] theorem State.setSt_params (b : Byte) : (s.setSt b).params = s.params := rfl
@[simp] theorem State.setSt_draws (b : Byte) : (s.setSt b).draws = s.draws := rfl
@[simp] theorem State.setSt_reg (b : Byte) (r : RegIdx) : (s.setSt b).reg r = s.reg r := rfl

/-! ### setFb -/

@[simp] theorem State.setFb_v (f : List Bool) : (s.setFb f).v = s.v := rfl
@[simp] theorem State.setFb_i (f : List Bool) : (s.setFb f).i = s.i := rfl
@[simp] theorem State.setFb_pc (f : List Bool) : (s.setFb f).pc = s.pc := rfl
@[simp] theorem State.setFb_mem (f : List Bool) : (s.setFb f).mem = s.mem := rfl
@[simp] theorem State.setFb_stack (f : List Bool) : (s.setFb f).stack = s.stack := rfl
@[simp] theorem State.setFb_sp (f : List Bool) : (s.setFb f).sp = s.sp := rfl
@[simp] theorem State.setFb_dt (f : List Bool) : (s.setFb f).dt = s.dt := rfl
@[simp] theorem State.setFb_st (f : List Bool) : (s.setFb f).st = s.st := rfl
@[simp] theorem State.setFb_fb (f : List Bool) : (s.setFb f).fb = f := rfl
@[simp] theorem State.setFb_keys (f : List Bool) : (s.setFb f).keys = s.keys := rfl
@[simp] theorem State.setFb_wait (f : List Bool) : (s.setFb f).wait = s.wait := rfl
@[simp] theorem State.setFb_waitReg (f : List Bool) : (s.setFb f).waitReg = s.waitReg := rfl
@[simp] theorem State.setFb_fault (f : List Bool) : (s.setFb f).fault = s.fault := rfl
@[simp] theorem State.setFb_params (f : List Bool) : (s.setFb f).params = s.params := rfl
@[simp] theorem State.setFb_draws (f : List Bool) : (s.setFb f).draws = s.draws := rfl
@[simp] theorem State.setFb_reg (f : List Bool) (r : RegIdx) : (s.setFb f).reg r = s.reg r := rfl

/-! ### setKeys -/

@[simp] theorem State.setKeys_v (b : BitVec 16) : (s.setKeys b).v = s.v := rfl
@[simp] theorem State.setKeys_i (b : BitVec 16) : (s.setKeys b).i = s.i := rfl
@[simp] theorem State.setKeys_pc (b : BitVec 16) : (s.setKeys b).pc = s.pc := rfl
@[simp] theorem State.setKeys_mem (b : BitVec 16) : (s.setKeys b).mem = s.mem := rfl
@[simp] theorem State.setKeys_stack (b : BitVec 16) : (s.setKeys b).stack = s.stack := rfl
@[simp] theorem State.setKeys_sp (b : BitVec 16) : (s.setKeys b).sp = s.sp := rfl
@[simp] theorem State.setKeys_dt (b : BitVec 16) : (s.setKeys b).dt = s.dt := rfl
@[simp] theorem State.setKeys_st (b : BitVec 16) : (s.setKeys b).st = s.st := rfl
@[simp] theorem State.setKeys_fb (b : BitVec 16) : (s.setKeys b).fb = s.fb := rfl
@[simp] theorem State.setKeys_keys (b : BitVec 16) : (s.setKeys b).keys = b := rfl
@[simp] theorem State.setKeys_wait (b : BitVec 16) : (s.setKeys b).wait = s.wait := rfl
@[simp] theorem State.setKeys_waitReg (b : BitVec 16) : (s.setKeys b).waitReg = s.waitReg := rfl
@[simp] theorem State.setKeys_fault (b : BitVec 16) : (s.setKeys b).fault = s.fault := rfl
@[simp] theorem State.setKeys_params (b : BitVec 16) : (s.setKeys b).params = s.params := rfl
@[simp] theorem State.setKeys_draws (b : BitVec 16) : (s.setKeys b).draws = s.draws := rfl
@[simp] theorem State.setKeys_reg (b : BitVec 16) (r : RegIdx) : (s.setKeys b).reg r = s.reg r := rfl

/-! ### startWait -/

@[simp] theorem State.startWait_v (x : RegIdx) : (s.startWait x).v = s.v := rfl
@[simp] theorem State.startWait_i (x : RegIdx) : (s.startWait x).i = s.i := rfl
@[simp] theorem State.startWait_pc (x : RegIdx) : (s.startWait x).pc = s.pc := rfl
@[simp] theorem State.startWait_mem (x : RegIdx) : (s.startWait x).mem = s.mem := rfl
@[simp] theorem State.startWait_stack (x : RegIdx) : (s.startWait x).stack = s.stack := rfl
@[simp] theorem State.startWait_sp (x : RegIdx) : (s.startWait x).sp = s.sp := rfl
@[simp] theorem State.startWait_dt (x : RegIdx) : (s.startWait x).dt = s.dt := rfl
@[simp] theorem State.startWait_st (x : RegIdx) : (s.startWait x).st = s.st := rfl
@[simp] theorem State.startWait_fb (x : RegIdx) : (s.startWait x).fb = s.fb := rfl
@[simp] theorem State.startWait_keys (x : RegIdx) : (s.startWait x).keys = s.keys := rfl
@[simp] theorem State.startWait_wait (x : RegIdx) : (s.startWait x).wait = true := rfl
@[simp] theorem State.startWait_waitReg (x : RegIdx) : (s.startWait x).waitReg = x := rfl
@[simp] theorem State.startWait_fault (x : RegIdx) : (s.startWait x).fault = s.fault := rfl
@[simp] theorem State.startWait_params (x : RegIdx) : (s.startWait x).params = s.params := rfl
@[simp] theorem State.startWait_draws (x : RegIdx) : (s.startWait x).draws = s.draws := rfl
@[simp] theorem State.startWait_reg (x : RegIdx) (r : RegIdx) : (s.startWait x).reg r = s.reg r := rfl

/-! ### endWait -/

@[simp] theorem State.endWait_v : s.endWait.v = s.v := rfl
@[simp] theorem State.endWait_i : s.endWait.i = s.i := rfl
@[simp] theorem State.endWait_pc : s.endWait.pc = s.pc := rfl
@[simp] theorem State.endWait_mem : s.endWait.mem = s.mem := rfl
@[simp] theorem State.endWait_stack : s.endWait.stack = s.stack := rfl
@[simp] theorem State.endWait_sp : s.endWait.sp = s.sp := rfl
@[simp] theorem State.endWait_dt : s.endWait.dt = s.dt := rfl
@[simp] theorem State.endWait_st : s.endWait.st = s.st := rfl
@[simp] theorem State.endWait_fb : s.endWait.fb = s.fb := rfl
@[simp] theorem State.endWait_keys : s.endWait.keys = s.keys := rfl
@[simp] theorem State.endWait_wait : s.endWait.wait = false := rfl
@[simp] theorem State.endWait_waitReg : s.endWait.waitReg = s.waitReg := rfl
@[simp] theorem State.endWait_fault : s.endWait.fault = s.fault := rfl
@[simp] theorem State.endWait_params : s.endWait.params = s.params := rfl
@[simp] theorem State.endWait_draws : s.endWait.draws = s.draws := rfl
@[simp] theorem State.endWait_reg (r : RegIdx) : s.endWait.reg r = s.reg r := rfl

/-! ### countDraw -/

@[simp] theorem State.countDraw_v : s.countDraw.v = s.v := rfl
@[simp] theorem State.countDraw_i : s.countDraw.i = s.i := rfl
@[simp] theorem State.countDraw_pc : s.countDraw.pc = s.pc := rfl
@[simp] theorem State.countDraw_mem : s.countDraw.mem = s.mem := rfl
@[simp] theorem State.countDraw_stack : s.countDraw.stack = s.stack := rfl
@[simp] theorem State.countDraw_sp : s.countDraw.sp = s.sp := rfl
@[simp] theorem State.countDraw_dt : s.countDraw.dt = s.dt := rfl
@[simp] theorem State.countDraw_st : s.countDraw.st = s.st := rfl
@[simp] theorem State.countDraw_fb : s.countDraw.fb = s.fb := rfl
@[simp] theorem State.countDraw_keys : s.countDraw.keys = s.keys := rfl
@[simp] theorem State.countDraw_wait : s.countDraw.wait = s.wait := rfl
@[simp] theorem State.countDraw_waitReg : s.countDraw.waitReg = s.waitReg := rfl
@[simp] theorem State.countDraw_fault : s.countDraw.fault = s.fault := rfl
@[simp] theorem State.countDraw_params : s.countDraw.params = s.params := rfl
@[simp] theorem State.countDraw_draws : s.countDraw.draws = s.draws + 1 := rfl
@[simp] theorem State.countDraw_reg (r : RegIdx) : s.countDraw.reg r = s.reg r := rfl

/-! ### raise -/

@[simp] theorem State.raise_v (p : Addr) (w : Word) (f : Fault) : (s.raise p w f).v = s.v := rfl
@[simp] theorem State.raise_i (p : Addr) (w : Word) (f : Fault) : (s.raise p w f).i = s.i := rfl
@[simp] theorem State.raise_pc (p : Addr) (w : Word) (f : Fault) : (s.raise p w f).pc = s.pc := rfl
@[simp] theorem State.raise_mem (p : Addr) (w : Word) (f : Fault) : (s.raise p w f).mem = s.mem := rfl
@[simp] theorem State.raise_stack (p : Addr) (w : Word) (f : Fault) : (s.raise p w f).stack = s.stack := rfl
@[simp] theorem State.raise_sp (p : Addr) (w : Word) (f : Fault) : (s.raise p w f).sp = s.sp := rfl
@[simp] theorem State.raise_dt (p : Addr) (w : Word) (f : Fault) : (s.raise p w f).dt = s.dt := rfl
@[simp] theorem State.raise_st (p : Addr) (w : Word) (f : Fault) : (s.raise p w f).st = s.st := rfl
@[simp] theorem State.raise_fb (p : Addr) (w : Word) (f : Fault) : (s.raise p w f).fb = s.fb := rfl
@[simp] theorem State.raise_keys (p : Addr) (w : Word) (f : Fault) : (s.raise p w f).keys = s.keys := rfl
@[simp] theorem State.raise_wait (p : Addr) (w : Word) (f : Fault) : (s.raise p w f).wait = s.wait := rfl
@[simp] theorem State.raise_waitReg (p : Addr) (w : Word) (f : Fault) : (s.raise p w f).waitReg = s.waitReg := rfl
@[simp] theorem State.raise_fault (p : Addr) (w : Word) (f : Fault) : (s.raise p w f).fault = { code := f.code, addr := p, word := w, info := f.info } := rfl
@[simp] theorem State.raise_params (p : Addr) (w : Word) (f : Fault) : (s.raise p w f).params = s.params := rfl
@[simp] theorem State.raise_draws (p : Addr) (w : Word) (f : Fault) : (s.raise p w f).draws = s.draws := rfl
@[simp] theorem State.raise_reg (p : Addr) (w : Word) (f : Fault) (r : RegIdx) : (s.raise p w f).reg r = s.reg r := rfl

/-! ### advancePc -/

@[simp] theorem State.advancePc_v : s.advancePc.v = s.v := rfl
@[simp] theorem State.advancePc_i : s.advancePc.i = s.i := rfl
@[simp] theorem State.advancePc_pc : s.advancePc.pc = s.pc + 2 := rfl
@[simp] theorem State.advancePc_mem : s.advancePc.mem = s.mem := rfl
@[simp] theorem State.advancePc_stack : s.advancePc.stack = s.stack := rfl
@[simp] theorem State.advancePc_sp : s.advancePc.sp = s.sp := rfl
@[simp] theorem State.advancePc_dt : s.advancePc.dt = s.dt := rfl
@[simp] theorem State.advancePc_st : s.advancePc.st = s.st := rfl
@[simp] theorem State.advancePc_fb : s.advancePc.fb = s.fb := rfl
@[simp] theorem State.advancePc_keys : s.advancePc.keys = s.keys := rfl
@[simp] theorem State.advancePc_wait : s.advancePc.wait = s.wait := rfl
@[simp] theorem State.advancePc_waitReg : s.advancePc.waitReg = s.waitReg := rfl
@[simp] theorem State.advancePc_fault : s.advancePc.fault = s.fault := rfl
@[simp] theorem State.advancePc_params : s.advancePc.params = s.params := rfl
@[simp] theorem State.advancePc_draws : s.advancePc.draws = s.draws := rfl
@[simp] theorem State.advancePc_reg (r : RegIdx) : s.advancePc.reg r = s.reg r := rfl

/-! ### Registers -/

@[simp] theorem State.setReg_reg_self (x : RegIdx) (b : Byte) : (s.setReg x b).reg x = b := by
  simp [State.reg]

theorem State.setReg_reg_of_ne {x r : RegIdx} (b : Byte) (h : r ≠ x) : (s.setReg x b).reg r = s.reg r := by
  have : x.toNat ≠ r.toNat := fun e => h (BitVec.eq_of_toNat_eq e.symm)
  simp [State.reg, Vector.getElem_set_ne _ _ this]

theorem State.setReg_reg (x r : RegIdx) (b : Byte) : (s.setReg x b).reg r = if r = x then b else s.reg r := by
  split
  · subst r; simp
  · exact s.setReg_reg_of_ne b (by assumption)

/-- Two register files that read the same at every index are the same. -/
theorem State.v_ext {s t : State} (h : ∀ r, t.reg r = s.reg r) : t.v = s.v := by
  apply Vector.ext
  intro k hk
  have := h (BitVec.ofNat 4 k)
  simpa [State.reg, Nat.mod_eq_of_lt hk] using this

/-- Writing back the value a register holds changes nothing. -/
theorem State.setReg_reg_same (x : RegIdx) : s.setReg x (s.reg x) = s := by
  ext1 <;> simp [State.reg]

end Sys2Proof.Machine
end

