-- ==== Sys2Proof/Laws/Ops.lean ====
section
/-! SUPPORT. One lemma per shared operation that says everything it can do; proofs about instructions cite these and do not
unfold the operations. -/

namespace Sys2Proof.Machine

variable {s : State}

/-! ### The end of an instruction -/

@[simp] theorem State.complete_ok (i : Instr) (t : State) : s.complete i (.ok t) = .next t := rfl

@[simp] theorem State.complete_error (i : Instr) (f : Fault) :
    s.complete i (.error f) = .next (s.raise s.pc0 (encode i) f) := rfl

/-- A checked instruction answers a next state: its own effect, or the fault record written and nothing else. -/
theorem State.complete_next {i : Instr} {r : Except Fault State} {t : State} (h : s.complete i r = .next t) :
    r = .ok t ∨ ∃ f, r = .error f ∧ t = s.raise s.pc0 (encode i) f := by
  cases r with
  | ok u => exact .inl (by simpa using h)
  | error f => exact .inr ⟨f, rfl, by simpa using h.symm⟩

/-- `PC - 2` undoes the advance of the fetch (R26; log 5). -/
@[simp] theorem State.pc0_advancePc : s.advancePc.pc0 = s.pc := by
  simp [State.pc0]

/-- Every fault has a code from 1 to 5 (R261). -/
@[simp] theorem Fault.code_ne_zero (f : Fault) : f.code ≠ 0#3 := by cases f <;> simp [Fault.code]

@[simp] theorem State.raise_faulted (p : Addr) (w : Word) (f : Fault) : (s.raise p w f).faulted = true := by
  simp [State.faulted]

/-! ### Memory accesses -/

theorem checkAccess_ok {base n : Nat} (h : n = 0 ∨ base + n ≤ memSize) : checkAccess base n = .ok () :=
  if_pos h

theorem checkAccess_error {base n : Nat} (h : ¬(n = 0 ∨ base + n ≤ memSize)) :
    checkAccess base n = .error (.memoryBounds memSize) :=
  if_neg h

theorem State.memReadSeq_ok {base n : Nat} (h : base + n ≤ memSize) :
    s.memReadSeq base n = .ok ((List.range n).map fun k => s.mem.read (base + k)) := by
  induction n generalizing base with
  | zero => rfl
  | succ n ih =>
    have hb : base < memSize := by omega
    rw [State.memReadSeq, ih (by omega)]
    simp only [State.memRead, hb, if_true, Except.map, List.range_succ_eq_map, List.map_cons, List.map_map,
      Nat.add_zero]
    congr 2
    apply List.map_congr_left
    intro k _
    simp only [Function.comp_apply, Nat.succ_eq_add_one]
    congr 1
    omega

/-- A checked read that fits gives the bytes in ascending order (R65, R66). -/
theorem State.load_ok {base n : Nat} (h : n = 0 ∨ base + n ≤ memSize) :
    s.load base n = .ok ((List.range n).map fun k => s.mem.read (base + k)) := by
  rw [State.load, checkAccess_ok h]
  rcases h with rfl | h
  · rfl
  · exact State.memReadSeq_ok h

/-- A checked read that does not fit raises `MemoryBounds(4096)` (R66). -/
theorem State.load_error {base n : Nat} (h : ¬(n = 0 ∨ base + n ≤ memSize)) :
    s.load base n = .error (.memoryBounds memSize) := by
  rw [State.load, checkAccess_error h]

theorem State.memWriteSeq_ok {bs : List Byte} {base : Nat} (h : base + bs.length ≤ memSize) :
    s.memWriteSeq base bs = .ok (s.setMem (s.mem.writeList base bs)) := by
  induction bs generalizing s base with
  | nil => rfl
  | cons b bs ih =>
    simp only [List.length_cons] at h
    have hb : base < memSize := by omega
    simp only [State.memWriteSeq, State.memWrite, hb, if_true]
    rw [ih (by omega)]
    rfl

/-- A checked write that fits stores the bytes and changes nothing else (R65, R66). -/
theorem State.store_ok {base : Nat} {bs : List Byte} (h : base + bs.length ≤ memSize) :
    s.store base bs = .ok (s.setMem (s.mem.writeList base bs)) := by
  rw [State.store, checkAccess_ok (.inr h)]
  exact State.memWriteSeq_ok h

/-- A checked write that does not fit raises `MemoryBounds(4096)` (R66). -/
theorem State.store_error {base : Nat} {bs : List Byte} (h : ¬(bs.length = 0 ∨ base + bs.length ≤ memSize)) :
    s.store base bs = .error (.memoryBounds memSize) := by
  rw [State.store, checkAccess_error h]

/-! ### The call stack -/

theorem State.push_ok {p : Addr} (h : s.sp.val < 16) :
    s.push p = .ok { s with stack := s.stack.set s.sp.val p h, sp := ⟨s.sp.val + 1, by omega⟩ } :=
  dif_pos h

theorem State.push_error {p : Addr} (h : ¬s.sp.val < 16) : s.push p = .error .stackOverflow :=
  dif_neg h

theorem State.pop_ok (h : s.sp.val ≠ 0) : s.pop = .ok (s.top, { s with sp := ⟨s.sp.val - 1, by omega⟩ }) :=
  if_neg h

theorem State.pop_error (h : s.sp.val = 0) : s.pop = .error .stackUnderflow :=
  if_pos h

/-! ### Fetch and skip -/

/-- Below 0xFFF the fetch gives the two bytes at `PC`, big-endian (R62, R122). -/
theorem State.fetch_ok (h : s.pc ≠ 0xFFF) :
    s.fetch = .ok (wordOfBytes (s.mem.read s.pc.toNat) (s.mem.read (s.pc.toNat + 1))) := by
  have hne : s.pc.toNat ≠ 4095 := fun e => h (BitVec.eq_of_toNat_eq (by simpa using e))
  have hlt : s.pc.toNat < 4096 := s.pc.isLt
  rw [State.fetch, State.load_ok (.inr (show s.pc.toNat + 2 ≤ memSize by unfold memSize; omega))]
  rfl

/-- At 0xFFF the fetch raises `MemoryBounds(4096)` (R27, R122). -/
theorem State.fetch_error (h : s.pc = 0xFFF) : s.fetch = .error (.memoryBounds memSize) := by
  rw [State.fetch, State.load_error (by rw [h]; decide)]

@[simp] theorem State.skipIf_true : s.skipIf true = s.advancePc := rfl
@[simp] theorem State.skipIf_false : s.skipIf false = s := rfl

/-- A skip changes nothing but `PC` (R124). -/
theorem State.skipIf_eq (c : Bool) : s.skipIf c = s.setPc (if c then s.pc + 2 else s.pc) := by
  cases c <;> rfl

/-! ### Flags and operands -/

/-- Flag first, result second (R23): what every register holds afterwards. -/
theorem State.setFlagThenReg_reg (x r : RegIdx) (c : Bool) (b : Byte) :
    (s.setFlagThenReg x c b).reg r = if r = x then b else if r = flagReg then flagByte c else s.reg r := by
  simp only [State.setFlagThenReg, State.setReg_reg]

theorem State.keyHeld_ok {vx : Byte} (h : vx.toNat ≤ 15) : s.keyHeld vx = .ok (s.keys.getLsbD vx.toNat) :=
  if_neg (by omega)

theorem State.keyHeld_error {vx : Byte} (h : 15 < vx.toNat) : s.keyHeld vx = .error (.keyIndexBounds vx) :=
  if_pos h

@[simp] theorem State.regRange_length (x : RegIdx) : (s.regRange x).length = x.toNat + 1 := by
  simp [State.regRange, rangeLength]

theorem State.regRange_getElem (x : RegIdx) (k : Nat) (h : k < (s.regRange x).length) :
    (s.regRange x)[k] = s.reg (BitVec.ofNat 4 k) := by
  simp [State.regRange]

@[simp] theorem decimalDigits_length (vx : Byte) : (decimalDigits vx).length = 3 := rfl

/-- Loading a list of bytes into consecutive registers changes nothing but the registers. -/
theorem State.setRegsFrom_eq (bs : List Byte) (k : Nat) : ∃ v, s.setRegsFrom k bs = { s with v := v } := by
  induction bs generalizing s k with
  | nil => exact ⟨s.v, rfl⟩
  | cons b bs ih =>
    obtain ⟨v, hv⟩ := ih (s := s.setReg (BitVec.ofNat 4 k) b) (k := k + 1)
    exact ⟨v, by rw [State.setRegsFrom, hv]; rfl⟩

/-- What every register holds after a list of bytes is loaded from register `k` on (R205). -/
theorem State.setRegsFrom_reg (bs : List Byte) (k : Nat) (h : k + bs.length ≤ 16) (r : RegIdx) :
    (s.setRegsFrom k bs).reg r =
      if hr : k ≤ r.toNat ∧ r.toNat < k + bs.length then bs[r.toNat - k]'(by omega) else s.reg r := by
  induction bs generalizing s k with
  | nil =>
    have : ¬(k ≤ r.toNat ∧ r.toNat < k) := by omega
    simp [State.setRegsFrom, this]
  | cons b bs ih =>
    simp only [List.length_cons] at h
    rw [State.setRegsFrom, ih (k := k + 1) (by omega)]
    have hk : (BitVec.ofNat 4 k).toNat = k := by rw [BitVec.toNat_ofNat]; omega
    by_cases hr : r.toNat = k
    · have e : r = BitVec.ofNat 4 k := BitVec.eq_of_toNat_eq (by omega)
      have h1 : ¬(k + 1 ≤ r.toNat ∧ r.toNat < k + 1 + bs.length) := by omega
      have h2 : k ≤ r.toNat ∧ r.toNat < k + (b :: bs).length := by simp only [List.length_cons]; omega
      rw [dif_neg h1, dif_pos h2]
      subst e
      simp [hk]
    · have hne : r ≠ BitVec.ofNat 4 k := fun e => hr (by rw [e, hk])
      by_cases h1 : k + 1 ≤ r.toNat ∧ r.toNat < k + 1 + bs.length
      · have h2 : k ≤ r.toNat ∧ r.toNat < k + (b :: bs).length := by simp only [List.length_cons]; omega
        rw [dif_pos h1, dif_pos h2]
        have h3 : r.toNat - k = (r.toNat - (k + 1)) + 1 := by omega
        simp [h3]
      · have h2 : ¬(k ≤ r.toNat ∧ r.toNat < k + (b :: bs).length) := by simp only [List.length_cons]; omega
        rw [dif_neg h1, dif_neg h2, State.setReg_reg_of_ne _ _ hne]

end Sys2Proof.Machine
end

