-- ==== Sys2Proof/Laws/Display.lean ====
section
/-! SUPPORT. What drawing does to a canvas: its size, one toggled pixel, and the row loop. -/

namespace Sys2Proof.Machine

@[simp] theorem blankFb_length (p : Params) : (blankFb p).length = p.fbW * p.fbH := by simp [blankFb]

@[simp] theorem blankFb_getD (p : Params) (k : Nat) : (blankFb p)[k]?.getD false = false := by
  simp only [blankFb, List.getElem?_replicate]
  split <;> rfl

/-- A pixel is the element of the row-major sequence at its index, off where there is none (R32). -/
theorem State.pixel_eq (s : State) (x y : Nat) : s.pixel x y = (s.fb[pixelIndex s.params x y]?).getD false := by
  rw [State.pixel, List.getD_eq_getElem?_getD]

@[simp] theorem State.reset_fb : State.reset.fb = blankFb defaultParams := rfl

@[simp] theorem State.reset_params : State.reset.params = defaultParams := rfl

@[simp] theorem Canvas.toggle_length (c : Canvas) (k : Nat) : (c.toggle k).fb.length = c.fb.length := by
  simp [Canvas.toggle]

/-- A toggle turns its own pixel and no other (R221). -/
theorem Canvas.toggle_getD (c : Canvas) (k j : Nat) (hk : k < c.fb.length) :
    (c.toggle k).fb.getD j false = (c.fb.getD j false ^^ decide (j = k)) := by
  by_cases h : j = k
  · subst j
    simp [Canvas.toggle, List.getD_eq_getElem?_getD, hk]
  · simp [Canvas.toggle, List.getD_eq_getElem?_getD, List.getElem?_set_ne (Ne.symm h), h]

theorem Canvas.drawPixel_eq (p : Params) (vx vy : Byte) (row : Nat) (b : Byte) (c : Canvas) (col : Nat) :
    c.drawPixel p vx vy row b col = if spriteBit b col then c.toggle (spriteIndex p vx vy row col) else c := rfl

@[simp] theorem Canvas.drawPixel_length (p : Params) (vx vy : Byte) (row : Nat) (b : Byte) (c : Canvas) (col : Nat) :
    (c.drawPixel p vx vy row b col).fb.length = c.fb.length := by
  rw [Canvas.drawPixel_eq]; split <;> simp

theorem Canvas.foldl_drawPixel_length (p : Params) (vx vy : Byte) (row : Nat) (b : Byte) (cols : List Nat)
    (c : Canvas) :
    (cols.foldl (fun c col => c.drawPixel p vx vy row b col) c).fb.length = c.fb.length := by
  induction cols generalizing c with
  | nil => rfl
  | cons col cols ih => simp [ih]

@[simp] theorem Canvas.drawRow_length (p : Params) (vx vy : Byte) (row : Nat) (b : Byte) (c : Canvas) :
    (c.drawRow p vx vy row b).fb.length = c.fb.length :=
  Canvas.foldl_drawPixel_length p vx vy row b _ c

/-- Drawing keeps the size of the framebuffer (R32). -/
@[simp] theorem Canvas.drawRows_length (p : Params) (vx vy : Byte) (rows : List Byte) (row : Nat) (c : Canvas) :
    (Canvas.drawRows p vx vy row rows c).fb.length = c.fb.length := by
  induction rows generalizing row c with
  | nil => rfl
  | cons b rows ih => simp [Canvas.drawRows, ih]

/-- The linear index of a wrapped pixel lies in the framebuffer (R32, R268). -/
theorem spriteIndex_lt {p : Params} (hw : 0 < p.fbW) (hh : 0 < p.fbH) (vx vy : Byte) (row col : Nat) :
    spriteIndex p vx vy row col < p.fbW * p.fbH := by
  have hx := Nat.mod_lt (vx.toNat + col) hw
  have hy := Nat.mod_lt (vy.toNat + row) hh
  calc spriteIndex p vx vy row col
      < (vy.toNat + row) % p.fbH * p.fbW + p.fbW := Nat.add_lt_add_left hx _
    _ = ((vy.toNat + row) % p.fbH + 1) * p.fbW := by rw [Nat.add_mul, Nat.one_mul]
    _ ≤ p.fbH * p.fbW := Nat.mul_le_mul_right _ hy
    _ = p.fbW * p.fbH := Nat.mul_comm _ _

/-! ### A draw as a list of toggles (R221, R222 (d)) -/

/-- The linear indices one sprite row toggles, left to right. -/
def rowHits (p : Params) (vx vy : Byte) (row : Nat) (b : Byte) : List Nat :=
  ((List.range 8).filter fun col => spriteBit b col).map fun col => spriteIndex p vx vy row col

/-- The linear indices a sprite toggles, top to bottom. -/
def spriteHits (p : Params) (vx vy : Byte) (row : Nat) : List Byte → List Nat
  | [] => []
  | b :: bs => rowHits p vx vy row b ++ spriteHits p vx vy (row + 1) bs

theorem Canvas.drawRow_eq (p : Params) (vx vy : Byte) (row : Nat) (b : Byte) (c : Canvas) :
    c.drawRow p vx vy row b = (rowHits p vx vy row b).foldl Canvas.toggle c := by
  rw [Canvas.drawRow, rowHits, List.foldl_map, List.foldl_filter]
  rfl

/-- A draw toggles the pixels of its set bits, one after another (R221). -/
theorem Canvas.drawRows_eq (p : Params) (vx vy : Byte) (rows : List Byte) (row : Nat) (c : Canvas) :
    Canvas.drawRows p vx vy row rows c = (spriteHits p vx vy row rows).foldl Canvas.toggle c := by
  induction rows generalizing row c with
  | nil => rfl
  | cons b rows ih => rw [Canvas.drawRows, ih, Canvas.drawRow_eq, spriteHits, List.foldl_append]

/-- Toggling distinct pixels: each listed pixel turns, and a collision is a listed pixel that was lit. -/
theorem Canvas.foldl_toggle (ks : List Nat) (c : Canvas) (hn : ks.Nodup) (hk : ∀ k ∈ ks, k < c.fb.length) :
    (∀ j, (ks.foldl Canvas.toggle c).fb.getD j false = (c.fb.getD j false ^^ decide (j ∈ ks))) ∧
    (ks.foldl Canvas.toggle c).collision = (c.collision || ks.any fun k => c.fb.getD k false) := by
  induction ks generalizing c with
  | nil => simp
  | cons k ks ih =>
    have hkl := hk k (by simp)
    have hks : k ∉ ks := (List.nodup_cons.mp hn).1
    obtain ⟨h1, h2⟩ := ih (c.toggle k) (List.nodup_cons.mp hn).2 (by simpa using fun j hj => hk j (by simp [hj]))
    refine ⟨fun j => ?_, ?_⟩
    · rw [List.foldl_cons, h1, c.toggle_getD k j hkl, Bool.xor_assoc]
      congr 1
      by_cases h : j = k
      · subst j; simp [hks]
      · simp [h]
    · rw [List.foldl_cons, h2, List.any_cons, Canvas.toggle, Bool.or_assoc]
      congr 2
      rw [Bool.eq_iff_iff, List.any_eq_true, List.any_eq_true]
      constructor <;> rintro ⟨j, hj, h⟩ <;> refine ⟨j, hj, ?_⟩ <;>
        simpa [List.getD_eq_getElem?_getD, List.getElem?_set_ne fun e : k = j => hks (e ▸ hj)] using h

end Sys2Proof.Machine
end

