-- ==== Sys2Proof/Laws/Encoding.lean ====
section
/-! SUPPORT. The bits, the fields and the masked words of each format of spec/30_encoding.md (R91, R92), and the big-endian
bytes of a word (R62). -/

namespace Sys2Proof

section Formats

variable (op : Nibble) (x y : RegIdx) (n : Nibble) (nn : Byte) (nnn : Addr) (w : Word)

/-! ### The bits of a word put together from its parts -/

theorem encodeA_getLsbD (k : Nat) :
    (encodeA op nnn).getLsbD k = if k < 12 then nnn.getLsbD k else op.getLsbD (k - 12) := by
  rw [show encodeA op nnn = (op ++ nnn : BitVec (4 + 12)) from rfl]
  exact BitVec.getLsbD_append

theorem encodeXI_getLsbD (k : Nat) :
    (encodeXI op x nn).getLsbD k =
      if k < 8 then nn.getLsbD k else if k < 12 then x.getLsbD (k - 8) else op.getLsbD (k - 12) := by
  have h : (encodeXI op x nn).getLsbD k = (((op ++ x : BitVec (4 + 4)) ++ nn : BitVec (4 + 4 + 8))).getLsbD k := rfl
  rw [h, BitVec.getLsbD_append, BitVec.getLsbD_append]
  split
  · rfl
  · by_cases hk : k < 12
    · simp [hk, show k - 8 < 4 by omega]
    · simp [hk, show ¬k - 8 < 4 by omega, show k - 8 - 4 = k - 12 by omega]

theorem encodeXYN_getLsbD (k : Nat) :
    (encodeXYN op x y n).getLsbD k =
      if k < 4 then n.getLsbD k else if k < 8 then y.getLsbD (k - 4)
      else if k < 12 then x.getLsbD (k - 8) else op.getLsbD (k - 12) := by
  have h : (encodeXYN op x y n).getLsbD k =
      ((((op ++ x : BitVec (4 + 4)) ++ y : BitVec (4 + 4 + 4)) ++ n : BitVec (4 + 4 + 4 + 4))).getLsbD k := rfl
  rw [h, BitVec.getLsbD_append, BitVec.getLsbD_append, BitVec.getLsbD_append]
  split
  · rfl
  · by_cases h8 : k < 8
    · simp [h8, show k - 4 < 4 by omega]
    · by_cases h12 : k < 12
      · simp [h8, h12, show ¬k - 4 < 4 by omega, show k - 4 - 4 = k - 8 by omega, show k - 8 < 4 by omega]
      · simp [h8, h12, show ¬k - 4 < 4 by omega, show k - 4 - 4 = k - 8 by omega, show ¬k - 8 < 4 by omega,
          show k - 8 - 4 = k - 12 by omega]

/-! ### Its fields -/

@[simp] theorem fieldOp_encodeA : fieldOp (encodeA op nnn) = op := by
  apply BitVec.eq_of_getLsbD_eq
  intro k hk
  simp [fieldOp, encodeA_getLsbD, hk]

@[simp] theorem fieldNNN_encodeA : fieldNNN (encodeA op nnn) = nnn := by
  apply BitVec.eq_of_getLsbD_eq
  intro k hk
  simp [fieldNNN, encodeA_getLsbD, hk]

@[simp] theorem fieldOp_encodeXI : fieldOp (encodeXI op x nn) = op := by
  apply BitVec.eq_of_getLsbD_eq
  intro k hk
  simp [fieldOp, encodeXI_getLsbD, hk, show ¬12 + k < 8 by omega]

@[simp] theorem fieldX_encodeXI : fieldX (encodeXI op x nn) = x := by
  apply BitVec.eq_of_getLsbD_eq
  intro k hk
  simp [fieldX, encodeXI_getLsbD, hk, show 8 + k < 12 by omega]

@[simp] theorem fieldNN_encodeXI : fieldNN (encodeXI op x nn) = nn := by
  apply BitVec.eq_of_getLsbD_eq
  intro k hk
  simp [fieldNN, encodeXI_getLsbD, hk]

@[simp] theorem fieldOp_encodeXYN : fieldOp (encodeXYN op x y n) = op := by
  apply BitVec.eq_of_getLsbD_eq
  intro k hk
  simp [fieldOp, encodeXYN_getLsbD, hk, show ¬12 + k < 4 by omega, show ¬12 + k < 8 by omega]

@[simp] theorem fieldX_encodeXYN : fieldX (encodeXYN op x y n) = x := by
  apply BitVec.eq_of_getLsbD_eq
  intro k hk
  simp [fieldX, encodeXYN_getLsbD, hk, show ¬8 + k < 4 by omega, show 8 + k < 12 by omega]

@[simp] theorem fieldY_encodeXYN : fieldY (encodeXYN op x y n) = y := by
  apply BitVec.eq_of_getLsbD_eq
  intro k hk
  simp [fieldY, encodeXYN_getLsbD, hk, show 4 + k < 8 by omega]

@[simp] theorem fieldN_encodeXYN : fieldN (encodeXYN op x y n) = n := by
  apply BitVec.eq_of_getLsbD_eq
  intro k hk
  simp [fieldN, encodeXYN_getLsbD, hk]

/-! ### A word put together from its own fields -/

theorem encodeA_fields : encodeA (fieldOp w) (fieldNNN w) = w := by
  apply BitVec.eq_of_getLsbD_eq
  intro k hk
  rw [encodeA_getLsbD]
  split <;> rename_i h
  · simp [fieldNNN, h]
  · simp [fieldOp, show k - 12 < 4 by omega, show 12 + (k - 12) = k by omega]

theorem encodeXI_fields : encodeXI (fieldOp w) (fieldX w) (fieldNN w) = w := by
  apply BitVec.eq_of_getLsbD_eq
  intro k hk
  rw [encodeXI_getLsbD]
  split <;> rename_i h
  · simp [fieldNN, h]
  · split <;> rename_i h'
    · simp [fieldX, show k - 8 < 4 by omega, show 8 + (k - 8) = k by omega]
    · simp [fieldOp, show k - 12 < 4 by omega, show 12 + (k - 12) = k by omega]

theorem encodeXYN_fields : encodeXYN (fieldOp w) (fieldX w) (fieldY w) (fieldN w) = w := by
  apply BitVec.eq_of_getLsbD_eq
  intro k hk
  rw [encodeXYN_getLsbD]
  split <;> rename_i h
  · simp [fieldN, h]
  · split <;> rename_i h8
    · simp [fieldY, show k - 4 < 4 by omega, show 4 + (k - 4) = k by omega]
    · split <;> rename_i h12
      · simp [fieldX, show k - 8 < 4 by omega, show 8 + (k - 8) = k by omega]
      · simp [fieldOp, show k - 12 < 4 by omega, show 12 + (k - 12) = k by omega]

/-! ### Its bits under the masks of R96 -/

theorem encodeA_masked : encodeA op nnn &&& 0xF000 = encodeA op 0 := by
  apply BitVec.eq_of_getLsbD_eq
  intro k hk
  rw [BitVec.getLsbD_and, encodeA_getLsbD, encodeA_getLsbD]
  interval_cases k <;> simp

theorem encodeXI_masked : encodeXI op x nn &&& 0xF000 = encodeXI op 0 0 := by
  apply BitVec.eq_of_getLsbD_eq
  intro k hk
  rw [BitVec.getLsbD_and, encodeXI_getLsbD, encodeXI_getLsbD]
  interval_cases k <;> simp

theorem encodeXI_masked_minor : encodeXI op x nn &&& 0xF0FF = encodeXI op 0 nn := by
  apply BitVec.eq_of_getLsbD_eq
  intro k hk
  rw [BitVec.getLsbD_and, encodeXI_getLsbD, encodeXI_getLsbD]
  interval_cases k <;> simp

theorem encodeXYN_masked : encodeXYN op x y n &&& 0xF000 = encodeXYN op 0 0 0 := by
  apply BitVec.eq_of_getLsbD_eq
  intro k hk
  rw [BitVec.getLsbD_and, encodeXYN_getLsbD, encodeXYN_getLsbD]
  interval_cases k <;> simp

theorem encodeXYN_masked_minor : encodeXYN op x y n &&& 0xF00F = encodeXYN op 0 0 n := by
  apply BitVec.eq_of_getLsbD_eq
  intro k hk
  rw [BitVec.getLsbD_and, encodeXYN_getLsbD, encodeXYN_getLsbD]
  interval_cases k <;> simp

/-! ### Its bytes -/

/-- The two bytes of a word, put together big-endian, are the word (R62). -/
@[simp] theorem wordOfBytes_bytes : wordOfBytes (hiByte w) (loByte w) = w := by
  apply BitVec.eq_of_getLsbD_eq
  intro k hk
  have h (a b : Byte) : (wordOfBytes a b).getLsbD k = ((a ++ b : BitVec (8 + 8))).getLsbD k := rfl
  rw [h, BitVec.getLsbD_append]
  split <;> rename_i hk'
  · simp [loByte, hk']
  · simp [hiByte, show k - 8 < 8 by omega, show 8 + (k - 8) = k by omega]

end Formats

end Sys2Proof
end

