-- ==== Sys2Proof/Laws/Step.lean ====
section
/-! SUPPORT. What one step can do, said once (spec/40_step_cycle_and_host_ops.md R121 to R123): later proofs take a step apart
with `step_cases` and do not unfold it. -/

namespace Sys2Proof.Machine

variable {s t : State}

/-- The word the next fetch assembles (R62). -/
abbrev State.nextWord (s : State) : Word := wordOfBytes (s.mem.read s.pc.toNat) (s.mem.read (s.pc.toNat + 1))

theorem step_of_faulted (h : s.faulted = true) : step s = .next s := by simp [step, h]

theorem step_of_waiting (h : s.wait = true) : step s = .next s := by
  cases hf : s.faulted <;> simp [step, hf, h]

theorem step_of_running (hf : s.faulted = false) (hw : s.wait = false) : step s = s.cycle := by simp [step, hf, hw]

theorem cycle_at_top (h : s.pc = 0xFFF) : s.cycle = .next (s.raiseInFetch (.memoryBounds memSize)) := by
  rw [State.cycle, State.fetch_error h]

theorem cycle_below_top (h : s.pc ≠ 0xFFF) : s.cycle = s.executeWord s.nextWord := by
  rw [State.cycle, State.fetch_ok h]

/-- A step of a CORE that is FAULTED or waiting does nothing; of a running one it faults in the fetch, faults in the decode,
or executes the instruction at `PC` from the state in which `PC` has advanced. -/
theorem step_cases (h : step s = .next t) :
    ((s.faulted = true ∨ s.wait = true) ∧ t = s) ∨
    (s.faulted = false ∧ s.wait = false ∧ s.pc = 0xFFF ∧ t = s.raiseInFetch (.memoryBounds memSize)) ∨
    (s.faulted = false ∧ s.wait = false ∧ s.pc ≠ 0xFFF ∧ (∃ e, decodeWord s.nextWord = .error e) ∧
      t = s.raiseInDecode s.nextWord) ∨
    (s.faulted = false ∧ s.wait = false ∧ s.pc ≠ 0xFFF ∧
      ∃ i, decodeWord s.nextWord = .ok i ∧ exec i s.advancePc = .next t) := by
  cases hf : s.faulted with
  | true => rw [step_of_faulted hf] at h; exact .inl ⟨.inl rfl, by simpa using h.symm⟩
  | false =>
    cases hw : s.wait with
    | true => rw [step_of_waiting hw] at h; exact .inl ⟨.inr rfl, by simpa using h.symm⟩
    | false =>
      rw [step_of_running hf hw] at h
      by_cases hp : s.pc = 0xFFF
      · rw [cycle_at_top hp] at h
        exact .inr (.inl ⟨rfl, rfl, hp, by simpa using h.symm⟩)
      · rw [cycle_below_top hp, State.executeWord] at h
        cases hd : decodeWord s.nextWord with
        | ok i => rw [hd] at h; exact .inr (.inr (.inr ⟨rfl, rfl, hp, i, rfl, h⟩))
        | error e => rw [hd] at h; exact .inr (.inr (.inl ⟨rfl, rfl, hp, ⟨e, rfl⟩, by simpa using h.symm⟩))

end Sys2Proof.Machine
end

