-- ==== Sys2Proof/Laws/HostOps.lean ====
section
/-! SUPPORT. What the host's operations do (spec/40_step_cycle_and_host_ops.md): one lemma per shared operation. -/

namespace Sys2Proof.Machine

variable {s : State}

theorem State.not_faulted_iff : s.faulted = false ↔ s.fault.code = 0 := by simp [State.faulted]

theorem State.faulted_iff : s.faulted = true ↔ s.fault.code ≠ 0 := by simp [State.faulted]

/-- The precondition of `create` on its image (R302). -/
theorem imageWellFormed_iff {image : List Byte} : imageWellFormed image = true ↔ image.length ≤ 3584 :=
  decide_eq_true_iff

/-- The constraints on the parameters (R7). -/
theorem paramsWellFormed_iff {p : Params} :
    p.wellFormed = true ↔ 8 ≤ p.fbW ∧ 15 ≤ p.fbH ∧ p.font.length = 80 := by
  simp [Params.wellFormed, and_assoc]

@[simp] theorem run_zero (s : State) : run 0 s = .next s := rfl

theorem run_succ {n : Nat} {t : State} (h : step s = .next t) : run (n + 1) s = run n t := by
  simp only [run, h]

/-- A run of a CORE whose step does nothing does nothing (R126). -/
theorem run_of_fixed (h : step s = .next s) (n : Nat) : run n s = .next s := by
  induction n with
  | zero => rfl
  | succ n ih => rw [run_succ h, ih]

/-- Writing the default font into empty memory lists nothing: it is what unlisted memory reads as (R38; log 2). -/
theorem writeList_defaultFont : Memory.writeList [] 0 defaultFont = [] := by decide

theorem State.created_mem (p : Params) (draws : Nat) (image : List Byte) :
    (State.created p draws image).mem = (Memory.writeList [] 0 p.font).writeList loadAddress image := rfl

theorem State.created_default_mem (draws : Nat) : (State.created defaultParams draws []).mem = [] := by
  rw [State.created_mem, Memory.writeList, show defaultParams.font = defaultFont from rfl, writeList_defaultFont]

/-- A timer one tick later (R128). -/
theorem countDown_toNat (b : Byte) : (countDown b).toNat = b.toNat - 1 := by
  unfold countDown
  split
  · subst b; rfl
  · rename_i h
    have : b.toNat ≠ 0 := fun e => h (BitVec.eq_of_toNat_eq (by simpa using e))
    have e : (1 : Byte).toNat = 1 := rfl
    rw [BitVec.toNat_sub, e]
    have := b.isLt
    omega

theorem State.tickTimers_of_running (h : s.fault.code = 0) :
    s.tickTimers = (s.setDt (countDown s.dt)).setSt (countDown s.st) := by
  simp [State.tickTimers, State.faulted, h]

/-- The lowest key of a bitmap is set, and no lower key is (R130). -/
theorem lowestKey_some {b : BitVec 16} {k : Nat} (h : lowestKey b = some k) :
    k < 16 ∧ b.getLsbD k = true ∧ ∀ j < k, b.getLsbD j = false := by
  rw [lowestKey, List.find?_range_eq_some] at h
  exact ⟨by simpa using h.2.1, by simpa using h.1, fun j hj => by simpa using h.2.2 j hj⟩

theorem lowestKey_none {b : BitVec 16} (h : lowestKey b = none) : b = 0 := by
  rw [lowestKey, List.find?_eq_none] at h
  apply BitVec.eq_of_getLsbD_eq
  intro k hk
  simpa using h k (by simpa using hk)

end Sys2Proof.Machine
end

