-- ==== Sys2Proof/Laws/Frame.lean ====
section
/-! SUPPORT. Frames of the updates (spec/10_state.md R39): what each leaves alone, and what a store leaves in memory, in the terms
of Safety.lean. -/

namespace Sys2Proof.Machine

variable {s t u : State}

/-- A frame that names fewer parts is the stronger one. -/
theorem sameBut.mono {ps qs : List Part} (h : sameBut ps s t) (hs : ∀ p ∈ ps, p ∈ qs) : sameBut qs s t where
  i := fun hn => h.i fun hp => hn (hs _ hp)
  mem := fun hn => h.mem fun hp => hn (hs _ hp)
  stack := fun hn => h.stack fun hp => hn (hs _ hp)
  sp := fun hn => h.sp fun hp => hn (hs _ hp)
  dt := fun hn => h.dt fun hp => hn (hs _ hp)
  st := fun hn => h.st fun hp => hn (hs _ hp)
  fb := fun hn => h.fb fun hp => hn (hs _ hp)
  keys := fun hn => h.keys fun hp => hn (hs _ hp)
  wait := fun hn => h.wait fun hp => hn (hs _ hp)
  waitReg := fun hn => h.waitReg fun hp => hn (hs _ hp)
  fault := fun hn => h.fault fun hp => hn (hs _ hp)
  params := fun hn => h.params fun hp => hn (hs _ hp)
  draws := fun hn => h.draws fun hp => hn (hs _ hp)

theorem sameRegsBut.mono {rs qs : List RegIdx} (h : sameRegsBut rs s t) (hs : ∀ r ∈ rs, r ∈ qs) :
    sameRegsBut qs s t := fun r hn => h r fun hr => hn (hs r hr)

theorem sameBut.refl (ps : List Part) (s : State) : sameBut ps s s := by constructor <;> intros <;> rfl

theorem sameRegsBut.refl (rs : List RegIdx) (s : State) : sameRegsBut rs s s := fun _ _ => rfl

theorem sameBut_setReg (x : RegIdx) (b : Byte) : sameBut [] s (s.setReg x b) := by constructor <;> simp

theorem sameRegsBut_setReg (x : RegIdx) (b : Byte) : sameRegsBut [x] s (s.setReg x b) := fun _ hr =>
  s.setReg_reg_of_ne b (by simpa using hr)

theorem sameBut_setPc (a : Addr) : sameBut [] s (s.setPc a) := by constructor <;> simp

theorem sameBut_setMem (m : Memory) : sameBut [.mem] s (s.setMem m) := by constructor <;> simp

theorem sameBut_raise (p : Addr) (w : Word) (f : Fault) : sameBut [.fault] s (s.raise p w f) := by constructor <;> simp

/-- A fault record written, and nothing else (R262). -/
theorem onlyFaulted_raise (p : Addr) (w : Word) (f : Fault) : onlyFaulted f s (s.raise p w f) :=
  ⟨Fault.code_ne_zero f, rfl, rfl⟩

theorem sameBut_setRegsFrom (k : Nat) (bs : List Byte) : sameBut [] s (s.setRegsFrom k bs) := by
  obtain ⟨v, hv⟩ := s.setRegsFrom_eq bs k
  rw [hv]
  constructor <;> simp

theorem setRegsFrom_pc (k : Nat) (bs : List Byte) : (s.setRegsFrom k bs).pc = s.pc := by
  obtain ⟨v, hv⟩ := s.setRegsFrom_eq bs k
  rw [hv]

/-- A write of one register, as the statements say it. -/
theorem writesOnlyReg_setReg (x : RegIdx) (b : Byte) : writesOnlyReg s (s.setReg x b) x b :=
  ⟨s.setReg_reg_self x b, sameRegsBut_setReg x b, rfl, sameBut_setReg x b⟩

/-- Flag first, result second, as the statements say it (R23). -/
theorem writesRegAndFlag_setFlagThenReg (x : RegIdx) (c : Bool) (b : Byte) :
    writesRegAndFlag s (s.setFlagThenReg x c b) x b c := by
  refine ⟨by simp [State.setFlagThenReg_reg], fun hx => ?_, fun r hr => ?_, rfl, ?_⟩
  · rw [State.setFlagThenReg_reg, if_neg (Ne.symm hx)]
    exact if_pos rfl
  · simp only [List.mem_cons, List.not_mem_nil, or_false, not_or] at hr
    rw [State.setFlagThenReg_reg, flagReg, if_neg hr.1]
    exact if_neg hr.2
  · constructor <;> simp [State.setFlagThenReg]

/-! ### What a store leaves in memory -/

/-- Memory after the digits of `Fx33` are written, read at any address (R203). -/
theorem State.read_digits_stored (x : RegIdx) (a : Nat) :
    (s.mem.writeList s.base (decimalDigits (s.reg x))).read a = byteAfterStore (.ldB x) s a := by
  have hl := decimalDigits_length (s.reg x)
  simp only [Memory.read_writeList, State.base, byteAfterStore]
  by_cases h : s.i.toNat ≤ a ∧ a < s.i.toNat + (decimalDigits (s.reg x)).length
  · obtain rfl | rfl | rfl : a = s.i.toNat ∨ a = s.i.toNat + 1 ∨ a = s.i.toNat + 2 := by omega
    all_goals simp [decimalDigits]
  · rw [dif_neg h, if_neg (by omega), if_neg (by omega), if_neg (by omega)]

/-- Memory after the registers of `Fx55` are written, read at any address (R204). -/
theorem State.read_registers_stored (x : RegIdx) (a : Nat) :
    (s.mem.writeList s.base (s.regRange x)).read a = byteAfterStore (.ldMemVx x) s a := by
  simp only [Memory.read_writeList, State.base, State.regRange_length, byteAfterStore]
  by_cases h : s.i.toNat ≤ a ∧ a < s.i.toNat + (x.toNat + 1)
  · rw [dif_pos h, if_pos (by omega), State.regRange_getElem]
  · rw [dif_neg h, if_neg (by omega)]

end Sys2Proof.Machine
end

