-- ==== Sys2Proof/Laws/PerInstr.lean ====
section
/-! SUPPORT. Statements made per instruction: the word the encoder writes matches the instruction's own row of
spec/30_encoding.md R96 under the row's mask. The table (WellFormed.lean) and the encoder (Decode.lean) are written apart. -/

namespace Sys2Proof.Laws.EncodedRow

/-- The encoded word matches the instruction's row (R96). -/
def Statement (i : Instr) : Prop := (rowOf i).matchesWord (encode i) = true

theorem cls : Statement .cls := by
  rfl
theorem ret : Statement .ret := by
  rfl
theorem jp (nnn : Addr) : Statement (.jp nnn) := by
  simp only [Statement, OpRow.matchesWord, rowOf, encode, encodeA_masked]; decide
theorem call (nnn : Addr) : Statement (.call nnn) := by
  simp only [Statement, OpRow.matchesWord, rowOf, encode, encodeA_masked]; decide
theorem seImm (x : RegIdx) (nn : Byte) : Statement (.seImm x nn) := by
  simp only [Statement, OpRow.matchesWord, rowOf, encode, encodeXI_masked]; decide
theorem sneImm (x : RegIdx) (nn : Byte) : Statement (.sneImm x nn) := by
  simp only [Statement, OpRow.matchesWord, rowOf, encode, encodeXI_masked]; decide
theorem seReg (x : RegIdx) (y : RegIdx) : Statement (.seReg x y) := by
  simp only [Statement, OpRow.matchesWord, rowOf, encode, encodeXYN_masked_minor]; decide
theorem ldImm (x : RegIdx) (nn : Byte) : Statement (.ldImm x nn) := by
  simp only [Statement, OpRow.matchesWord, rowOf, encode, encodeXI_masked]; decide
theorem addImm (x : RegIdx) (nn : Byte) : Statement (.addImm x nn) := by
  simp only [Statement, OpRow.matchesWord, rowOf, encode, encodeXI_masked]; decide
theorem ldReg (x : RegIdx) (y : RegIdx) : Statement (.ldReg x y) := by
  simp only [Statement, OpRow.matchesWord, rowOf, encode, encodeXYN_masked_minor]; decide
theorem or (x : RegIdx) (y : RegIdx) : Statement (.or x y) := by
  simp only [Statement, OpRow.matchesWord, rowOf, encode, encodeXYN_masked_minor]; decide
theorem and (x : RegIdx) (y : RegIdx) : Statement (.and x y) := by
  simp only [Statement, OpRow.matchesWord, rowOf, encode, encodeXYN_masked_minor]; decide
theorem xor (x : RegIdx) (y : RegIdx) : Statement (.xor x y) := by
  simp only [Statement, OpRow.matchesWord, rowOf, encode, encodeXYN_masked_minor]; decide
theorem addReg (x : RegIdx) (y : RegIdx) : Statement (.addReg x y) := by
  simp only [Statement, OpRow.matchesWord, rowOf, encode, encodeXYN_masked_minor]; decide
theorem sub (x : RegIdx) (y : RegIdx) : Statement (.sub x y) := by
  simp only [Statement, OpRow.matchesWord, rowOf, encode, encodeXYN_masked_minor]; decide
theorem shr (x : RegIdx) (y : RegIdx) : Statement (.shr x y) := by
  simp only [Statement, OpRow.matchesWord, rowOf, encode, encodeXYN_masked_minor]; decide
theorem subn (x : RegIdx) (y : RegIdx) : Statement (.subn x y) := by
  simp only [Statement, OpRow.matchesWord, rowOf, encode, encodeXYN_masked_minor]; decide
theorem shl (x : RegIdx) (y : RegIdx) : Statement (.shl x y) := by
  simp only [Statement, OpRow.matchesWord, rowOf, encode, encodeXYN_masked_minor]; decide
theorem sneReg (x : RegIdx) (y : RegIdx) : Statement (.sneReg x y) := by
  simp only [Statement, OpRow.matchesWord, rowOf, encode, encodeXYN_masked_minor]; decide
theorem ldI (nnn : Addr) : Statement (.ldI nnn) := by
  simp only [Statement, OpRow.matchesWord, rowOf, encode, encodeA_masked]; decide
theorem jpV0 (nnn : Addr) : Statement (.jpV0 nnn) := by
  simp only [Statement, OpRow.matchesWord, rowOf, encode, encodeA_masked]; decide
theorem rnd (x : RegIdx) (nn : Byte) : Statement (.rnd x nn) := by
  simp only [Statement, OpRow.matchesWord, rowOf, encode, encodeXI_masked]; decide
theorem drw (x : RegIdx) (y : RegIdx) (n : Nibble) : Statement (.drw x y n) := by
  simp only [Statement, OpRow.matchesWord, rowOf, encode, encodeXYN_masked]; decide
theorem skp (x : RegIdx) : Statement (.skp x) := by
  simp only [Statement, OpRow.matchesWord, rowOf, encode, encodeXI_masked_minor]; decide
theorem sknp (x : RegIdx) : Statement (.sknp x) := by
  simp only [Statement, OpRow.matchesWord, rowOf, encode, encodeXI_masked_minor]; decide
theorem ldVxDt (x : RegIdx) : Statement (.ldVxDt x) := by
  simp only [Statement, OpRow.matchesWord, rowOf, encode, encodeXI_masked_minor]; decide
theorem ldVxK (x : RegIdx) : Statement (.ldVxK x) := by
  simp only [Statement, OpRow.matchesWord, rowOf, encode, encodeXI_masked_minor]; decide
theorem ldDtVx (x : RegIdx) : Statement (.ldDtVx x) := by
  simp only [Statement, OpRow.matchesWord, rowOf, encode, encodeXI_masked_minor]; decide
theorem ldStVx (x : RegIdx) : Statement (.ldStVx x) := by
  simp only [Statement, OpRow.matchesWord, rowOf, encode, encodeXI_masked_minor]; decide
theorem addI (x : RegIdx) : Statement (.addI x) := by
  simp only [Statement, OpRow.matchesWord, rowOf, encode, encodeXI_masked_minor]; decide
theorem ldF (x : RegIdx) : Statement (.ldF x) := by
  simp only [Statement, OpRow.matchesWord, rowOf, encode, encodeXI_masked_minor]; decide
theorem ldB (x : RegIdx) : Statement (.ldB x) := by
  simp only [Statement, OpRow.matchesWord, rowOf, encode, encodeXI_masked_minor]; decide
theorem ldMemVx (x : RegIdx) : Statement (.ldMemVx x) := by
  simp only [Statement, OpRow.matchesWord, rowOf, encode, encodeXI_masked_minor]; decide
theorem ldVxMem (x : RegIdx) : Statement (.ldVxMem x) := by
  simp only [Statement, OpRow.matchesWord, rowOf, encode, encodeXI_masked_minor]; decide

end Sys2Proof.Laws.EncodedRow
end

