-- ==== Sys2Proof/Laws/Sprite.lean ====
section
/-! SUPPORT. Which pixels a sprite toggles, and that they are distinct (spec/44_display.md R221, R222 (d)). -/

namespace Sys2Proof.Machine

/-- What one row toggles: the pixels of its set bits (R221). -/
theorem mem_rowHits {p : Params} {vx vy : Byte} {row : Nat} {b : Byte} {j : Nat} :
    j ∈ rowHits p vx vy row b ↔ ∃ col < 8, spriteBit b col = true ∧ spriteIndex p vx vy row col = j := by
  simp only [rowHits, List.mem_map, List.mem_filter, List.mem_range, and_assoc]

/-- What a sprite toggles: the pixels of the set bits of its rows (R221). -/
theorem mem_spriteHits {p : Params} {vx vy : Byte} {rows : List Byte} {row j : Nat} :
    j ∈ spriteHits p vx vy row rows ↔
      ∃ k, ∃ h : k < rows.length, ∃ col < 8, spriteBit rows[k] col = true ∧ spriteIndex p vx vy (row + k) col = j := by
  induction rows generalizing row with
  | nil => simp [spriteHits]
  | cons b rows ih =>
    rw [spriteHits, List.mem_append, mem_rowHits, ih]
    constructor
    · rintro (⟨col, hc, hb, rfl⟩ | ⟨k, hk, col, hc, hb, rfl⟩)
      · exact ⟨0, by simp, col, hc, hb, rfl⟩
      · exact ⟨k + 1, by simpa using hk, col, hc, by simpa using hb, by rw [Nat.add_assoc, Nat.add_comm 1]⟩
    · rintro ⟨k, hk, col, hc, hb, rfl⟩
      cases k with
      | zero => exact .inl ⟨col, hc, by simpa using hb, rfl⟩
      | succ k => exact .inr ⟨k, by simpa using hk, col, hc, by simpa using hb, by rw [Nat.add_assoc, Nat.add_comm 1]⟩

/-- Pixels of different columns or rows have different indices (R132). -/
theorem pixelIndex_inj {p : Params} {x x' y y' : Nat} (hx : x < p.fbW) (hx' : x' < p.fbW)
    (h : pixelIndex p x y = pixelIndex p x' y') : x = x' ∧ y = y' := by
  have hw : 0 < p.fbW := by omega
  have e : x = x' := by
    have := congrArg (· % p.fbW) h
    simpa [pixelIndex, Nat.mul_add_mod_self_right, Nat.mod_eq_of_lt, hx, hx'] using this
  subst e
  exact ⟨rfl, Nat.eq_of_mul_eq_mul_right hw (by simpa [pixelIndex] using h)⟩

theorem add_mod_inj {a b b' m n : Nat} (hb : b < n) (hb' : b' < n) (hn : n ≤ m)
    (h : (a + b) % m = (a + b') % m) : b = b' := by
  have : b ≡ b' [MOD m] := Nat.ModEq.add_left_cancel' a h
  exact Nat.ModEq.eq_of_lt_of_lt this (by omega) (by omega)

/-- The pixels one draw touches are all distinct (R222 (d)), because the screen is at least 8 by 15 (R7). -/
theorem spriteIndex_inj {p : Params} (hp : p.wellFormed = true) {vx vy : Byte} {row row' col col' : Nat}
    (hr : row < 15) (hr' : row' < 15) (hc : col < 8) (hc' : col' < 8)
    (h : spriteIndex p vx vy row col = spriteIndex p vx vy row' col') : row = row' ∧ col = col' := by
  obtain ⟨h1, h2, _⟩ := paramsWellFormed_iff.mp hp
  obtain ⟨e1, e2⟩ := pixelIndex_inj (Nat.mod_lt _ (by omega)) (Nat.mod_lt _ (by omega)) h
  exact ⟨add_mod_inj hr hr' h2 e2, add_mod_inj hc hc' h1 e1⟩

theorem spriteHits_nodup {p : Params} (hp : p.wellFormed = true) {vx vy : Byte} {rows : List Byte}
    {row : Nat} (h : row + rows.length ≤ 15) :
    (spriteHits p vx vy row rows).Nodup := by
  induction rows generalizing row with
  | nil => simp [spriteHits]
  | cons b rows ih =>
    simp only [List.length_cons] at h
    rw [spriteHits, List.nodup_append]
    refine ⟨?_, ih (by omega), ?_⟩
    · refine List.Nodup.map_on ?_ (List.Nodup.filter _ List.nodup_range)
      intro c hc c' hc' e
      simp only [List.mem_filter, List.mem_range] at hc hc'
      exact (spriteIndex_inj hp (by omega) (by omega) hc.1 hc'.1 e).2
    · rintro a ha b' hb' rfl
      obtain ⟨c, hc, _, e⟩ := mem_rowHits.mp ha
      obtain ⟨k, hk, c', hc', _, e'⟩ := mem_spriteHits.mp hb'
      have := (spriteIndex_inj hp (by omega) (by omega) hc hc' (e.trans e'.symm)).1
      omega

end Sys2Proof.Machine
end

