-- ==== Sys2Proof/Tests/Slice0.lean ====
section
/-! SUPPORT. The model's own tests. Expected results come from spec/95_test_vectors.md, whose vector is named at each test
(CF, A, M, G, K, U: Part 2; S: Part 1; P: Part 3), and from the rules named. The last part gives every obligation that has
hypotheses concrete states and operands that meet them. -/

namespace Sys2Proof.Tests

open Sys2Proof.Machine

/-! ### Helpers -/

/-- The reset state with some registers and memory preset, and the word `w` then placed at its `PC`. -/
def placed (w : Nat) (preset : State → State) : State := (preset State.reset).withFetchWord 16 w

/-- Whether the outcome is a next state that passes `check`. -/
def passes (o : Host.Outcome State Fault Refusal) (check : State → Bool) : Bool :=
  match o with
  | .next t => check t
  | _ => false

/-- One step of the word `w` from a preset state, and a check of what it leaves. -/
def stepped (w : Nat) (preset : State → State) (check : State → Bool) : Bool := passes (step (placed w preset)) check

/-- Bytes preset from address `a` on. -/
def bytesAt (a : Nat) (bs : List Byte) (s : State) : State := s.setMem (s.mem.writeList a bs)

/-- Pixels preset to lit. -/
def lit (ps : List (Nat × Nat)) (s : State) : State :=
  s.setFb (ps.foldl (fun f p => f.set (p.2 * 64 + p.1) true) s.fb)

/-- `V[x]` preset, by number. -/
def v (x : RegIdx) (b : Byte) (s : State) : State := s.setReg x b

/-! ### WellFormed: each check refuses an ill-formed term -/

theorem test_params_default_accepted : defaultParams.wellFormed = true := by decide
/-- R7: the width is at least 8. -/
theorem test_params_narrow_refused : ({ defaultParams with fbW := 7 } : Params).wellFormed = false := by decide
/-- R7: the height is at least 15. -/
theorem test_params_low_refused : ({ defaultParams with fbH := 14 } : Params).wellFormed = false := by decide
/-- R7, R35: the font has exactly 80 bytes. -/
theorem test_params_short_font_refused :
    ({ defaultParams with font := defaultFont.drop 1 } : Params).wellFormed = false := by decide
/-- R302, S1: 3584 bytes are accepted and 3585 refused. -/
theorem test_image_bound : imageWellFormed (List.replicate 3584 0) = true ∧
    imageWellFormed (List.replicate 3585 0) = false := by
  simp only [imageWellFormed, maxImage, List.length_replicate]; decide
/-- Words that match no row (R97, 95 section 2.1). -/
def invalidWords : List Word :=
  [0x0000, 0x0123, 0x01E0, 0x00E1, 0x00EF, 0x5121, 0x512F, 0x9AB3, 0x8128, 0x8129, 0x812F] ++
  [0xE000, 0xE09F, 0xE1A2, 0xF000, 0xF130, 0xF175, 0xF0FF, 0xFFFF]

theorem test_invalid_words_ill_formed : invalidWords.any wordWellFormed = false := by decide
theorem test_invalid_words_refused : (invalidWords.all fun w =>
    match decodeWord w with | .error (.invalidWord u) => u == w | _ => false) = true := by decide
/-- R96: a word of a row is accepted. -/
theorem test_valid_words_accepted : ([0x00E0, 0x812E, 0xF265] : List Word).all wordWellFormed = true := by decide

/-! ### Decoding: every constructor's word, as 95 section 2.1 writes it out -/

theorem test_decode_cls : decodeWord 0x00E0 = .ok (.cls) ∧ encode (.cls) = 0x00E0 := by decide
theorem test_decode_ret : decodeWord 0x00EE = .ok (.ret) ∧ encode (.ret) = 0x00EE := by decide
theorem test_decode_jp : decodeWord 0x1ABC = .ok (.jp 0xABC) ∧ encode (.jp 0xABC) = 0x1ABC := by decide
theorem test_decode_call : decodeWord 0x2300 = .ok (.call 0x300) ∧ encode (.call 0x300) = 0x2300 := by decide
theorem test_decode_seImm : decodeWord 0x3A42 = .ok (.seImm 0xA 0x42) ∧ encode (.seImm 0xA 0x42) = 0x3A42 := by decide
theorem test_decode_sneImm : decodeWord 0x4A42 = .ok (.sneImm 0xA 0x42) ∧ encode (.sneImm 0xA 0x42) = 0x4A42 := by decide
theorem test_decode_seReg : decodeWord 0x5120 = .ok (.seReg 1 2) ∧ encode (.seReg 1 2) = 0x5120 := by decide
theorem test_decode_ldImm : decodeWord 0x6A42 = .ok (.ldImm 0xA 0x42) ∧ encode (.ldImm 0xA 0x42) = 0x6A42 := by decide
theorem test_decode_addImm : decodeWord 0x7A01 = .ok (.addImm 0xA 0x01) ∧ encode (.addImm 0xA 0x01) = 0x7A01 := by decide
theorem test_decode_ldReg : decodeWord 0x8120 = .ok (.ldReg 1 2) ∧ encode (.ldReg 1 2) = 0x8120 := by decide
theorem test_decode_or : decodeWord 0x8121 = .ok (.or 1 2) ∧ encode (.or 1 2) = 0x8121 := by decide
theorem test_decode_and : decodeWord 0x8122 = .ok (.and 1 2) ∧ encode (.and 1 2) = 0x8122 := by decide
theorem test_decode_xor : decodeWord 0x8123 = .ok (.xor 1 2) ∧ encode (.xor 1 2) = 0x8123 := by decide
theorem test_decode_addReg : decodeWord 0x8124 = .ok (.addReg 1 2) ∧ encode (.addReg 1 2) = 0x8124 := by decide
theorem test_decode_sub : decodeWord 0x8125 = .ok (.sub 1 2) ∧ encode (.sub 1 2) = 0x8125 := by decide
theorem test_decode_shr : decodeWord 0x8126 = .ok (.shr 1 2) ∧ encode (.shr 1 2) = 0x8126 := by decide
theorem test_decode_subn : decodeWord 0x8127 = .ok (.subn 1 2) ∧ encode (.subn 1 2) = 0x8127 := by decide
theorem test_decode_shl : decodeWord 0x812E = .ok (.shl 1 2) ∧ encode (.shl 1 2) = 0x812E := by decide
theorem test_decode_sneReg : decodeWord 0x9120 = .ok (.sneReg 1 2) ∧ encode (.sneReg 1 2) = 0x9120 := by decide
theorem test_decode_ldI : decodeWord 0xA123 = .ok (.ldI 0x123) ∧ encode (.ldI 0x123) = 0xA123 := by decide
theorem test_decode_jpV0 : decodeWord 0xB300 = .ok (.jpV0 0x300) ∧ encode (.jpV0 0x300) = 0xB300 := by decide
theorem test_decode_rnd : decodeWord 0xC10F = .ok (.rnd 1 0x0F) ∧ encode (.rnd 1 0x0F) = 0xC10F := by decide
theorem test_decode_drw : decodeWord 0xD125 = .ok (.drw 1 2 5) ∧ encode (.drw 1 2 5) = 0xD125 := by decide
theorem test_decode_skp : decodeWord 0xE19E = .ok (.skp 1) ∧ encode (.skp 1) = 0xE19E := by decide
theorem test_decode_sknp : decodeWord 0xE1A1 = .ok (.sknp 1) ∧ encode (.sknp 1) = 0xE1A1 := by decide
theorem test_decode_ldVxDt : decodeWord 0xF107 = .ok (.ldVxDt 1) ∧ encode (.ldVxDt 1) = 0xF107 := by decide
theorem test_decode_ldVxK : decodeWord 0xF30A = .ok (.ldVxK 3) ∧ encode (.ldVxK 3) = 0xF30A := by decide
theorem test_decode_ldDtVx : decodeWord 0xF115 = .ok (.ldDtVx 1) ∧ encode (.ldDtVx 1) = 0xF115 := by decide
theorem test_decode_ldStVx : decodeWord 0xF118 = .ok (.ldStVx 1) ∧ encode (.ldStVx 1) = 0xF118 := by decide
theorem test_decode_addI : decodeWord 0xF11E = .ok (.addI 1) ∧ encode (.addI 1) = 0xF11E := by decide
theorem test_decode_ldF : decodeWord 0xF129 = .ok (.ldF 1) ∧ encode (.ldF 1) = 0xF129 := by decide
theorem test_decode_ldB : decodeWord 0xF133 = .ok (.ldB 1) ∧ encode (.ldB 1) = 0xF133 := by decide
theorem test_decode_ldMemVx : decodeWord 0xF255 = .ok (.ldMemVx 2) ∧ encode (.ldMemVx 2) = 0xF255 := by decide
theorem test_decode_ldVxMem : decodeWord 0xF265 = .ok (.ldVxMem 2) ∧ encode (.ldVxMem 2) = 0xF265 := by decide
/-- R62: the byte at the lower address is the high byte, so `12 34` is `1234`; one byte is no instruction (R90). -/
theorem test_decode_bytes : decodeBytes [0x12, 0x34, 0x56] = .ok (.jp 0x234, [0x56]) ∧
    decodeBytes [0x12] = .error .tooShort := by decide
theorem test_decode_table_word :
    decodeTableWord 16 0x6A42 = some (.ldImm 0xA 0x42) ∧ decodeTableWord 16 0x0123 = none := by decide

/-! ### One step of each instruction -/

/-- G1, one of the two pixels -/
theorem test_cls :
    stepped 0x00E0 (fun s => s |> lit [(0, 0), (63, 31)] |> v 0xF 0x07)
      (fun t => t.pixel 0 0 == false && t.pixel 63 31 == false && t.reg 15 == 0x07 && t.pc == 0x202) = true := by
  decide +kernel

/-- CF10 -/
theorem test_ret :
    stepped 0x00EE (fun s => { s with sp := 16, stack := s.stack.set 15 0xFFF })
      (fun t => t.pc == 0xFFF && t.sp == 15) = true := by
  decide

/-- CF9 -/
theorem test_ret_underflow :
    stepped 0x00EE id
      (fun t => t.fault == ⟨3, 0x200, 0x00EE, 0⟩ && t.pc == 0x202 && t.sp == 0) = true := by
  decide

/-- CF1 -/
theorem test_jp : stepped 0x1ABC id (fun t => t.pc == 0xABC) = true := by decide

/-- CF5: `pc1` wraps -/
theorem test_call_wraps :
    stepped 0x2300 (fun s => { s with pc := 0xFFE })
      (fun t => t.stack[0] == 0x000 && t.sp == 1 && t.pc == 0x300) = true := by
  decide

/-- CF7 -/
theorem test_call_overflow :
    stepped 0x2300 (fun s => { s with sp := 16 })
      (fun t => t.fault == ⟨2, 0x200, 0x2300, 0⟩ && t.pc == 0x202 && t.sp == 16) = true := by
  decide

/-- CF13: the skip wraps -/
theorem test_seImm_skips :
    stepped 0x3A42 (fun s => { s with pc := 0xFFC } |> v 0xA 0x42)
      (fun t => t.pc == 0x000) = true := by
  decide

/-- CF12 -/
theorem test_seImm_stays : stepped 0x3A42 (fun s => s |> v 0xA 0x41) (fun t => t.pc == 0x202) = true := by decide

/-- CF16 -/
theorem test_sneImm_stays : stepped 0x4A42 (fun s => s |> v 0xA 0x42) (fun t => t.pc == 0x202) = true := by decide

/-- CF17 -/
theorem test_sneImm_skips : stepped 0x4A42 (fun s => s |> v 0xA 0x41) (fun t => t.pc == 0x204) = true := by decide

/-- CF19 -/
theorem test_seReg_stays :
    stepped 0x5120 (fun s => s |> v 0x1 0x07 |> v 0x2 0x08)
      (fun t => t.pc == 0x202) = true := by
  decide

/-- CF20 -/
theorem test_seReg_same : stepped 0x5330 (fun s => s |> v 0x3 0x09) (fun t => t.pc == 0x204) = true := by decide

/-- CF21 -/
theorem test_sneReg_stays :
    stepped 0x9120 (fun s => s |> v 0x1 0x07 |> v 0x2 0x07)
      (fun t => t.pc == 0x202) = true := by
  decide

/-- CF22 -/
theorem test_sneReg_skips :
    stepped 0x9120 (fun s => s |> v 0x1 0x07 |> v 0x2 0x08)
      (fun t => t.pc == 0x204) = true := by
  decide

/-- CF24: always `V[0]` -/
theorem test_jpV0 : stepped 0xB300 (fun s => s |> v 0x0 0x10 |> v 0x3 0x77) (fun t => t.pc == 0x310) = true := by decide

/-- CF26 -/
theorem test_jpV0_wraps : stepped 0xBFFF (fun s => s |> v 0x0 0xFF) (fun t => t.pc == 0x0FE) = true := by decide

/-- A1 -/
theorem test_ldImm : stepped 0x6A42 id (fun t => t.reg 10 == 0x42 && t.pc == 0x202) = true := by decide

/-- A3 -/
theorem test_addImm_no_flag :
    stepped 0x7A01 (fun s => s |> v 0xA 0xFF |> v 0xF 0x55)
      (fun t => t.reg 10 == 0x00 && t.reg 15 == 0x55) = true := by
  decide

/-- A6 -/
theorem test_addImm_vf : stepped 0x7F02 (fun s => s |> v 0xF 0xFF) (fun t => t.reg 15 == 0x01) = true := by decide

/-- A7 -/
theorem test_ldReg :
    stepped 0x8120 (fun s => s |> v 0x1 0x01 |> v 0x2 0x09)
      (fun t => t.reg 1 == 0x09 && t.reg 2 == 0x09) = true := by
  decide

/-- A10 -/
theorem test_or :
    stepped 0x8121 (fun s => s |> v 0x1 0xCA |> v 0x2 0x53 |> v 0xF 0xAA)
      (fun t => t.reg 1 == 0xDB && t.reg 15 == 0xAA) = true := by
  decide

/-- A11 -/
theorem test_and :
    stepped 0x8122 (fun s => s |> v 0x1 0xCA |> v 0x2 0x53 |> v 0xF 0xAA)
      (fun t => t.reg 1 == 0x42 && t.reg 15 == 0xAA) = true := by
  decide

/-- A12 -/
theorem test_xor :
    stepped 0x8123 (fun s => s |> v 0x1 0xCA |> v 0x2 0x53 |> v 0xF 0xAA)
      (fun t => t.reg 1 == 0x99 && t.reg 15 == 0xAA) = true := by
  decide

/-- A15 -/
theorem test_addReg :
    stepped 0x8124 (fun s => s |> v 0x1 0xFA |> v 0x2 0x0A)
      (fun t => t.reg 1 == 0x04 && t.reg 15 == 0x01) = true := by
  decide

/-- A19: 255 is no carry -/
theorem test_addReg_255 :
    stepped 0x8124 (fun s => s |> v 0x1 0xFF |> v 0x2 0x00)
      (fun t => t.reg 1 == 0xFF && t.reg 15 == 0x00) = true := by
  decide

/-- A29 -/
theorem test_sub_borrow :
    stepped 0x8125 (fun s => s |> v 0x1 0x03 |> v 0x2 0x0A)
      (fun t => t.reg 1 == 0xF9 && t.reg 15 == 0x00) = true := by
  decide

/-- A30: equal is no borrow -/
theorem test_sub_equal :
    stepped 0x8125 (fun s => s |> v 0x1 0x07 |> v 0x2 0x07)
      (fun t => t.reg 1 == 0x00 && t.reg 15 == 0x01) = true := by
  decide

/-- A48: `y` is ignored -/
theorem test_shr :
    stepped 0x8126 (fun s => s |> v 0x1 0x05 |> v 0x2 0xFF)
      (fun t => t.reg 1 == 0x02 && t.reg 15 == 0x01 && t.reg 2 == 0xFF) = true := by
  decide

/-- A53: the result stays -/
theorem test_shr_vf : stepped 0x8F26 (fun s => s |> v 0xF 0x03) (fun t => t.reg 15 == 0x01) = true := by decide

/-- A39 -/
theorem test_subn :
    stepped 0x8127 (fun s => s |> v 0x1 0x03 |> v 0x2 0x0A)
      (fun t => t.reg 1 == 0x07 && t.reg 15 == 0x01) = true := by
  decide

/-- A46: the operand is the old `VF` -/
theorem test_subn_old_vf :
    stepped 0x81F7 (fun s => s |> v 0x1 0x05 |> v 0xF 0x03)
      (fun t => t.reg 1 == 0xFE && t.reg 15 == 0x00) = true := by
  decide

/-- A55 -/
theorem test_shl :
    stepped 0x812E (fun s => s |> v 0x1 0x81 |> v 0x2 0x00)
      (fun t => t.reg 1 == 0x02 && t.reg 15 == 0x01) = true := by
  decide

/-- A60 -/
theorem test_shl_vf : stepped 0x8F2E (fun s => s |> v 0xF 0x81) (fun t => t.reg 15 == 0x02) = true := by decide

/-- M2 -/
theorem test_ldI : stepped 0xAFFF id (fun t => t.i == 0xFFF) = true := by decide

/-- M5 -/
theorem test_addI_wraps :
    stepped 0xF11E (fun s => { s with i := 0xFFF } |> v 0x1 0x01 |> v 0xF 0x09)
      (fun t => t.i == 0x000 && t.reg 15 == 0x09) = true := by
  decide

/-- M4 -/
theorem test_addI :
    stepped 0xF11E (fun s => { s with i := 0x100 } |> v 0x1 0x20)
      (fun t => t.i == 0x120) = true := by
  decide

/-- M11 -/
theorem test_ldF : stepped 0xF129 (fun s => s |> v 0x1 0x0F) (fun t => t.i == 0x04B) = true := by decide

/-- M13 -/
theorem test_ldF_whole_byte : stepped 0xF129 (fun s => s |> v 0x1 0xFF) (fun t => t.i == 0x4FB) = true := by decide

/-- M19 -/
theorem test_ldB :
    stepped 0xF133 (fun s => { s with i := 0xFFD } |> v 0x1 0x81)
      (fun t => t.mem.read 0xFFD == 1 && t.mem.read 0xFFE == 2 && t.mem.read 0xFFF == 9) = true := by
  decide

/-- M20 -/
theorem test_ldB_bounds :
    stepped 0xF133 (fun s => { s with i := 0xFFE } |> v 0x1 0x81)
      (fun t => t.fault == ⟨4, 0x200, 0xF133, 4096⟩ && t.mem.read 0xFFE == 0 && t.pc == 0x202) = true := by
  decide

/-- M22 -/
theorem test_ldMemVx :
    stepped 0xF255 (fun s => { s with i := 0x300 } |> v 0x0 0x11 |> v 0x1 0x22 |> v 0x2 0x33 |> v 0x3 0x44)
      (fun t => t.mem.read 0x300 == 0x11 && t.mem.read 0x302 == 0x33 && t.mem.read 0x303 == 0 && t.i == 0x300) = true := by
  decide

/-- M27 -/
theorem test_ldMemVx_bounds :
    stepped 0xF155 (fun s => { s with i := 0xFFF } |> v 0x0 0x5A)
      (fun t => t.fault == ⟨4, 0x200, 0xF155, 4096⟩ && t.mem.read 0xFFF == 0) = true := by
  decide

/-- M31: the font, `VF` a plain destination -/
theorem test_ldVxMem :
    stepped 0xFF65 id
      (fun t => t.reg 0 == 0xF0 && t.reg 6 == 0x60 && t.reg 15 == 0xF0 && t.i == 0) = true := by
  decide

/-- M33 -/
theorem test_ldVxMem_bounds :
    stepped 0xF165 (fun s => { s with i := 0xFFF } |> bytesAt 0xFFF [0x42] |> v 0x0 0x77)
      (fun t => t.fault == ⟨4, 0x200, 0xF165, 4096⟩ && t.reg 0 == 0x77) = true := by
  decide

/-- G7: one pixel erased, one set -/
theorem test_drw :
    stepped 0xD011 (fun s => { s with i := 0x300 } |> bytesAt 0x300 [0x18] |>
        v 0x0 0x0A |> v 0x1 0x05 |> lit [(13, 5)])
      (fun t => t.pixel 13 5 == false && t.pixel 14 5 && t.pixel 15 5 == false && t.reg 15 == 0x01) = true := by
  decide +kernel

/-- G11 and G2: the start is reduced and the row wraps -/
theorem test_drw_wraps :
    stepped 0xD011 (fun s => { s with i := 0x300 } |> bytesAt 0x300 [0xC0] |> v 0x0 0xFF |> v 0x1 0xFF)
      (fun t => t.pixel 63 31 && t.pixel 0 31 && t.pixel 0 0 == false && t.reg 15 == 0x00) = true := by
  decide +kernel

/-- K4 -/
theorem test_skp :
    stepped 0xE19E (fun s => { s with keys := 0x8000 } |> v 0x1 0x0F)
      (fun t => t.pc == 0x204) = true := by
  decide

/-- K5: not key 0 -/
theorem test_skp_bounds :
    stepped 0xE19E (fun s => { s with keys := 0xFFFF } |> v 0x1 0x10)
      (fun t => t.fault == ⟨5, 0x200, 0xE19E, 16⟩ && t.pc == 0x202) = true := by
  decide

/-- K8 -/
theorem test_sknp :
    stepped 0xE1A1 (fun s => { s with keys := 0xFFDF } |> v 0x1 0x05)
      (fun t => t.pc == 0x204) = true := by
  decide

/-- K11: not key 5 -/
theorem test_sknp_bounds :
    stepped 0xE1A1 (fun s => { s with keys := 0x0020 } |> v 0x1 0x15)
      (fun t => t.fault == ⟨5, 0x200, 0xE1A1, 21⟩) = true := by
  decide

/-- K12 -/
theorem test_ldVxDt :
    stepped 0xF107 (fun s => { s with dt := 0x2A })
      (fun t => t.reg 1 == 0x2A && t.dt == 0x2A) = true := by
  decide

/-- K19: held keys do not count -/
theorem test_ldVxK :
    stepped 0xF30A (fun s => { s with keys := 0xFFFF })
      (fun t => t.wait && t.waitReg == 3 && t.pc == 0x202 && t.reg 3 == 0) = true := by
  decide

/-- K15 -/
theorem test_ldDtVx :
    stepped 0xF115 (fun s => { s with dt := 0x07, st := 0x09 } |> v 0x1 0x3C)
      (fun t => t.dt == 0x3C && t.st == 0x09) = true := by
  decide

/-- K17 -/
theorem test_ldStVx :
    stepped 0xF118 (fun s => { s with dt := 0x07, st := 0x09 } |> v 0x1 0x3C)
      (fun t => t.st == 0x3C && t.dt == 0x07) = true := by
  decide

/-- S9 -/
theorem test_invalid_word :
    stepped 0x0123 id
      (fun t => t.fault == ⟨1, 0x200, 0x0123, 0⟩ && t.pc == 0x202) = true := by
  decide

/-- A64: with `nn = 00` the result is determined. -/
theorem test_rnd_zero_mask : ∀ t, exec (.rnd 1 0) State.reset = .next t → t.reg 1 = 0 := by
  intro t h; cases h; simp [State.reg]

/-- A66: what is stored is the byte drawn, masked. -/
theorem test_rnd_masks_the_draw :
    ∀ t, exec (.rnd 1 0x0F) State.reset = .next t → t.reg 1 = Config.randomByte 0 &&& 0x0F ∧ t.draws = 1 := by
  intro t h; cases h; exact ⟨rfl, rfl⟩

/-- CF3: the fetch at 0xFFF. -/
theorem test_fetch_at_top : passes (step { State.reset with pc := 0xFFF })
    (fun t => t.fault == ⟨4, 0xFFF, 0x0000, 4096⟩ && t.pc == 0xFFF) = true := by decide

/-- K21: a waiting CORE fetches nothing. -/
theorem test_waiting_step : passes (step (placed 0x1ABC fun s => { s with wait := true }))
    (fun t => t.pc == 0x200 && t.wait) = true := by decide

/-- The codes of R261, and what is recorded as info, as numerals. -/
theorem test_fault_codes :
    Fault.decodeFault.code = 1 ∧ Fault.stackOverflow.code = 2 ∧ Fault.stackUnderflow.code = 3 ∧
    (Fault.memoryBounds 4096).code = 4 ∧ (Fault.keyIndexBounds 255).code = 5 ∧ Fault.decodeFault.info = 0 ∧
    Fault.stackOverflow.info = 0 ∧ Fault.stackUnderflow.info = 0 ∧ (Fault.memoryBounds 4096).info = 4096 ∧
    (Fault.keyIndexBounds 255).info = 255 := by decide

/-! ### Host operations -/

/-- 95 section 2.7: ticks of `DT = 3`, `ST = 1`. -/
theorem test_ticks : passes ({ State.reset with dt := 3, st := 1 }.applyAll [.tickTimers, .tickTimers])
    (fun t => t.dt == 1 && t.st == 0) = true := by decide

/-- U2: the lowest of two newly pressed keys. -/
theorem test_update_input_lowest :
    let t := ({ State.reset with wait := true, waitReg := 7 }).updateInput 0x8020
    t.reg 7 = 0x05 ∧ t.wait = false ∧ t.keys = 0x8020 := by decide

/-- U3: a key held before is not newly pressed. -/
theorem test_update_input_held :
    let t := ({ State.reset with wait := true, waitReg := 7, keys := 0x0020 }).updateInput 0x0020
    t.reg 7 = 0 ∧ t.wait = true := by decide

/-- P5a: after a fault nothing but `create` changes anything. -/
theorem test_faulted_is_terminal :
    passes ((placed 0x0123 id).applyAll [.run 3, .tickTimers, .updateInput 1])
      (fun t => t.fault == ⟨1, 0x200, 0x0123, 0⟩ && t.pc == 0x202 && t.keys == 0) = true := by decide +kernel

/-- 95 section 2.7, `create`: the image lies from 512 on, below it the font, nothing else. -/
theorem test_create : passes (create defaultParams 0 [0x12, 0x34])
    (fun t => t.mem.read 0x200 == 0x12 && t.mem.read 0x201 == 0x34 && t.mem.read 0x202 == 0 && t.mem.read 0x4B == 0xF0 &&
      t.pc == 0x200) = true := by decide +kernel

/-! ### Witnesses: concrete states and operands that meet the hypotheses of the obligations

Each theorem bears the name of its obligation; a clause with hypotheses of its own has its own conjunct, at a boundary value
of its range. -/

/-- A running CORE at the highest address from which an instruction can be fetched, with `w` there. -/
def atTop (w : Nat) : State := ({ State.reset with pc := 0xFFE }).withFetchWord 16 w

/-- A FAULTED CORE. -/
def broken : State := { State.reset with fault := { code := 3, addr := 0x200, word := 0x00EE, info := 0 } }

/-- A CORE that meets the invariant, with `I` at the last byte of memory. -/
def lastByte : State := { State.reset with i := 0xFFF }

theorem lastByte_inv : lastByte.Inv :=
  ⟨by decide, by decide, List.length_replicate .., .inl rfl, fun h => absurd rfl h⟩

theorem witness_EncodeOfDecodeIsTheWord : decodeWord 0x8AB6 = .ok (.shr 0xA 0xB) := by decide

theorem witness_RowMatchGivesTheInstruction : rowOf (.skp 0) ∈ opcodeTable ∧
    (rowOf (.skp 0)).matchesWord 0xEF9E = true ∧ 0xEF9E &&& (rowOf (.skp 0)).mask = (rowOf (.skp 0)).value :=
  ⟨List.mem_map_of_mem (by simp), by decide, by decide⟩

theorem witness_StepIsOneInstructionOrNothing :
    (∃ s : State, s.fault.code ≠ 0) ∧ (∃ s : State, s.wait = true) ∧
    (∃ (s : State) (i : Instr), s.running ∧ s.pc ≠ 0xFFF ∧ decodeWord s.wordAtPc = .ok i) :=
  ⟨⟨broken, by decide⟩, ⟨{ State.reset with wait := true }, rfl⟩, ⟨atTop 0x8AB6, .shr 0xA 0xB, ⟨rfl, rfl⟩, by decide, rfl⟩⟩

theorem witness_StepRunsTheDecodedInstruction : ∃ (s : State) (i : Instr), s.running ∧ s.pc ≠ 0xFFF ∧
    decodeBytes [s.mem.read s.pc.toNat, s.mem.read (s.pc.toNat + 1)] = .ok (i, []) :=
  ⟨atTop 0x8AB6, .shr 0xA 0xB, ⟨rfl, rfl⟩, by decide, rfl⟩

theorem witness_FetchAtTheTopFaults : ∃ s : State, s.running ∧ s.pc = 0xFFF :=
  ⟨{ State.reset with pc := 0xFFF }, ⟨rfl, rfl⟩, rfl⟩

theorem witness_InvalidWordFaultsAndChangesNothingElse :
    ∃ s : State, s.running ∧ s.pc ≠ 0xFFF ∧ wordWellFormed s.wordAtPc = false :=
  ⟨atTop 0x5121, ⟨rfl, rfl⟩, by decide, by decide⟩

theorem witness_FaultedIsTerminal :
    (∃ (s : State) (ops : List HostOp), s.fault.code ≠ 0 ∧ ops ≠ [] ∧ ∀ image, HostOp.create image ∉ ops) ∧
    (∃ (s t : State) (image : List Byte), s.fault.code ≠ 0 ∧ s.apply (.create image) = .next t) :=
  ⟨⟨broken, [.step, .tickTimers], by decide, by simp, by simp⟩, ⟨broken, _, [], by decide, rfl⟩⟩

theorem witness_StepKeepsTheInvariant : ∃ s t : State, s.Inv ∧ step s = .next t := ⟨lastByte, _, lastByte_inv, rfl⟩

theorem witness_HostOperationsKeepTheInvariant :
    ∃ (s t : State) (op : HostOp), s.Inv ∧ s.apply op = .next t := ⟨lastByte, _, .tickTimers, lastByte_inv, rfl⟩

theorem witness_CreateMeetsTheInvariant : ∃ (p : Params) (image : List Byte) (t : State), p.wellFormed = true ∧
    Machine.create p 0 image = .next t :=
  ⟨{ fbW := 8, fbH := 15, font := defaultFont }, [0x00, 0xE0], _, by decide, rfl⟩

theorem witness_FaultsArePrecise :
    (∃ s t : State, s.running ∧ step s = .next t ∧ t.fault.code ≠ 0 ∧ s.pc = 0xFFF) ∧
    (∃ s t : State, s.running ∧ step s = .next t ∧ t.fault.code ≠ 0 ∧ s.pc ≠ 0xFFF) :=
  ⟨⟨{ State.reset with pc := 0xFFF }, _, ⟨rfl, rfl⟩, rfl, by decide, rfl⟩,
    ⟨atTop 0x5121, _, ⟨rfl, rfl⟩, rfl, by decide, by decide⟩⟩

theorem witness_InstructionsFaultExactlyWhenTabled :
    faultOf (.call 0x300) { State.reset with sp := 16 } = some .stackOverflow ∧
    faultOf (.call 0x300) { State.reset with sp := 15 } = none ∧
    faultOf .ret State.reset = some .stackUnderflow ∧ faultOf .ret { State.reset with sp := 1 } = none ∧
    faultOf (.ldB 0) { State.reset with i := 0xFFE } = some (.memoryBounds 4096) ∧
    faultOf (.ldB 0) { State.reset with i := 0xFFD } = none ∧
    faultOf (.ldMemVx 1) lastByte = some (.memoryBounds 4096) ∧ faultOf (.ldMemVx 0) lastByte = none ∧
    faultOf (.ldVxMem 1) lastByte = some (.memoryBounds 4096) ∧ faultOf (.ldVxMem 0) lastByte = none ∧
    faultOf (.drw 0 1 2) lastByte = some (.memoryBounds 4096) ∧ faultOf (.drw 0 1 1) lastByte = none ∧
    faultOf (.drw 0 1 0) lastByte = none ∧
    faultOf (.skp 1) (v 1 16 State.reset) = some (.keyIndexBounds 16) ∧ faultOf (.skp 1) (v 1 15 State.reset) = none ∧
    faultOf (.sknp 1) (v 1 255 State.reset) = some (.keyIndexBounds 255) ∧
    faultOf (.sknp 1) (v 1 15 State.reset) = none ∧ faultOf .cls State.reset = none := by decide

theorem witness_ReturnPopsTheStack :
    (∃ (s : State) (k : Fin 16), s.sp.val = k.val + 1 ∧ k.val = 15) ∧ (∃ s : State, s.sp.val = 0) :=
  ⟨⟨{ State.reset with sp := 16 }, 15, by decide, by decide⟩, ⟨State.reset, rfl⟩⟩

theorem witness_CallPushesTheReturnAddress : (∃ s : State, s.sp.val < 16 ∧ s.sp.val = 15) ∧ (∃ s : State, s.sp.val = 16) :=
  ⟨⟨{ State.reset with sp := 15 }, by decide, by decide⟩, ⟨{ State.reset with sp := 16 }, rfl⟩⟩

theorem witness_ReturnUndoesCall : ∃ (s t u : State), s.sp.val < 16 ∧ exec (.call 0xFFF) s = .next t ∧
    u.stack = t.stack ∧ u.sp = t.sp := ⟨{ State.reset with sp := 15 }, _, _, by decide, rfl, rfl, rfl⟩

theorem witness_FlagIsLostInRegisterFifteen :
    (∃ t, exec (.addReg 15 3) State.reset = .next t) ∧ (∃ t, exec (.sub 15 3) State.reset = .next t) ∧
    (∃ t, exec (.subn 15 3) State.reset = .next t) ∧ (∃ t, exec (.shr 15 3) State.reset = .next t) ∧
    (∃ t, exec (.shl 15 3) State.reset = .next t) ∧ (∃ t, exec (.addReg 15 15) State.reset = .next t) ∧
    (∃ t, exec (.sub 15 15) State.reset = .next t) ∧ (∃ t, exec (.subn 15 15) State.reset = .next t) :=
  ⟨⟨_, rfl⟩, ⟨_, rfl⟩, ⟨_, rfl⟩, ⟨_, rfl⟩, ⟨_, rfl⟩, ⟨_, rfl⟩, ⟨_, rfl⟩, ⟨_, rfl⟩⟩

theorem witness_RandomByteIsMasked : (∃ k < 8, (0x7F : Byte).getLsbD k = false) := ⟨7, by decide, by decide⟩

theorem witness_DecimalDigitsAreStored : (∃ s : State, s.i.toNat ≤ 4093 ∧ s.i = 0xFFD) ∧
    (∃ s : State, 4094 ≤ s.i.toNat ∧ s.i = 0xFFE) :=
  ⟨⟨{ State.reset with i := 0xFFD }, by decide, rfl⟩, ⟨{ State.reset with i := 0xFFE }, by decide, rfl⟩⟩

theorem witness_RegistersAreStored : (∃ (x : RegIdx) (s : State), s.i.toNat + x.toNat < 4096 ∧ s.i.toNat + x.toNat = 4095) ∧
    (∃ (x : RegIdx) (s : State), 4096 ≤ s.i.toNat + x.toNat ∧ s.i.toNat + x.toNat = 4096) :=
  ⟨⟨0, lastByte, by decide, by decide⟩, ⟨1, lastByte, by decide, by decide⟩⟩

theorem witness_RegistersAreLoaded :
    (∃ (x : RegIdx) (s : State), s.i.toNat + x.toNat < 4096 ∧ s.i.toNat + x.toNat = 4095) ∧
    (∃ (x : RegIdx) (s : State), 4096 ≤ s.i.toNat + x.toNat ∧ s.i.toNat + x.toNat = 4096) :=
  ⟨⟨15, { State.reset with i := 0xFF0 }, by decide, by decide⟩, ⟨15, { State.reset with i := 0xFF1 }, by decide, by decide⟩⟩

theorem witness_LoadUndoesStore : ∃ (x : RegIdx) (s t u : State), s.i.toNat + x.toNat < 4096 ∧
    exec (.ldMemVx x) s = .next t ∧ u.mem = t.mem ∧ u.i = s.i := ⟨0, lastByte, _, _, by decide, rfl, rfl, rfl⟩

/-- Four stores: `Fx55` whose range reaches on both sides past `PC` and `PC + 1`, where it makes JP; `Fx55` of one byte, at
`PC + 1` and the last byte of memory; `Fx33` whose last digit falls on `PC`, where it makes CLS with the byte after it; `Fx33`
that writes both bytes, where it makes no instruction. -/
theorem witness_StoreIsSeenByTheNextFetch :
    (∃ (x : RegIdx) (s : State) (j : Instr), s.running ∧ s.pc ≠ 0xFFF ∧ faultOf (.ldMemVx x) s = none ∧
      s.i.toNat < s.pc.toNat ∧ s.pc.toNat + 1 < s.i.toNat + x.toNat ∧ decodeWord (byteAfterStore (.ldMemVx x) s s.pc.toNat ++
        byteAfterStore (.ldMemVx x) s (s.pc.toNat + 1)) = .ok j) ∧
    (∃ (x : RegIdx) (s : State) (j : Instr), s.running ∧ s.pc ≠ 0xFFF ∧ faultOf (.ldMemVx x) s = none ∧
      x = 0 ∧ s.i = 0xFFF ∧ s.pc = 0xFFE ∧ decodeWord (byteAfterStore (.ldMemVx x) s s.pc.toNat ++
        byteAfterStore (.ldMemVx x) s (s.pc.toNat + 1)) = .ok j) ∧
    (∃ (x : RegIdx) (s : State) (j : Instr), s.running ∧ s.pc ≠ 0xFFF ∧ faultOf (.ldB x) s = none ∧
      s.pc.toNat = s.i.toNat + 2 ∧ decodeWord (byteAfterStore (.ldB x) s s.pc.toNat ++
        byteAfterStore (.ldB x) s (s.pc.toNat + 1)) = .ok j) ∧
    (∃ (x : RegIdx) (s : State), s.running ∧ s.pc ≠ 0xFFF ∧ faultOf (.ldB x) s = none ∧ s.pc = s.i ∧
      wordWellFormed (byteAfterStore (.ldB x) s s.pc.toNat ++ byteAfterStore (.ldB x) s (s.pc.toNat + 1)) = false) :=
  ⟨⟨3, v 1 0x12 { State.reset with i := 0x1FF }, .jp 0x200, ⟨rfl, rfl⟩, by decide, by decide, by decide, by decide, rfl⟩,
    ⟨0, v 0 0x34 (atTop 0x1200) |>.setI 0xFFF, .jp 0x234, ⟨rfl, rfl⟩, by decide, by decide, rfl, rfl, rfl, rfl⟩,
    ⟨0, bytesAt 0x201 [0xE0] { State.reset with i := 0x1FE }, .cls, ⟨rfl, rfl⟩, by decide, by decide, by decide, rfl⟩,
    ⟨0, { State.reset with i := 0x200 }, ⟨rfl, rfl⟩, by decide, by decide, rfl, by decide⟩⟩

theorem witness_DrawIsXorWithTheWrappedSprite :
    (∃ (n : Nibble) (s : State), s.Inv ∧ n.toNat = 0) ∧
    (∃ (n : Nibble) (s : State), s.Inv ∧ 1 ≤ n.toNat ∧ s.i.toNat + n.toNat ≤ 4096 ∧ s.i.toNat + n.toNat = 4096) ∧
    (∃ (n : Nibble) (s : State), s.Inv ∧ 1 ≤ n.toNat ∧ 4096 ≤ s.i.toNat + n.toNat - 1 ∧ s.i.toNat + n.toNat = 4097) ∧
    (∃ px py : Nat, px < lastByte.params.fbW ∧ py < lastByte.params.fbH ∧ px = 63 ∧ py = 31) :=
  ⟨⟨0, lastByte, lastByte_inv, rfl⟩, ⟨1, lastByte, lastByte_inv, by decide, by decide, by decide⟩,
    ⟨2, lastByte, lastByte_inv, by decide, by decide, by decide⟩, ⟨63, 31, by decide, by decide, rfl, rfl⟩⟩

/-- The two clauses on the flag: a state in which a set bit of the sprite falls on a lit pixel, and one in which none does. -/
theorem witness_DrawIsXorWithTheWrappedSprite_flag :
    ((lit [(0, 0)] State.reset).Inv ∧ spriteCollides (lit [(0, 0)] State.reset) 0 0 1) ∧
    (lastByte.Inv ∧ ¬spriteCollides lastByte 0 0 1) := by
  refine ⟨⟨⟨by decide, by decide, ?_, .inl rfl, fun h => absurd rfl h⟩, ?_⟩, lastByte_inv, ?_⟩
  · exact (List.length_set ..).trans (List.length_replicate ..)
  · exact ⟨0, by decide, 0, by decide, by decide +kernel, 0, by decide, 0, by decide, by decide, by decide, by decide⟩
  · rintro ⟨px, -, py, -, h, -⟩
    simp [State.pixel, lastByte] at h

theorem witness_DrawingTwiceRestoresTheScreen : ∃ (x y : RegIdx) (n : Nibble) (s t u : State), s.Inv ∧ x ≠ 15 ∧ y ≠ 15 ∧
    (n.toNat = 0 ∨ s.i.toNat + n.toNat ≤ 4096) ∧ exec (.drw x y n) s = .next t ∧ exec (.drw x y n) t = .next u :=
  ⟨0, 1, 1, lastByte, _, _, lastByte_inv, by decide, by decide, .inr (by decide), rfl, rfl⟩

theorem witness_KeySkipsTestTheNamedKey : (∃ (x : RegIdx) (s : State), (s.reg x).toNat ≤ 15 ∧ (s.reg x).toNat = 15) ∧
    (∃ (x : RegIdx) (s : State), 15 < (s.reg x).toNat ∧ (s.reg x).toNat = 16) :=
  ⟨⟨1, v 1 15 State.reset, by decide, by decide⟩, ⟨1, v 1 16 State.reset, by decide, by decide⟩⟩

theorem witness_KeyWaitHoldsUntilAPress : ∃ s : State, s.running ∧
    (∃ bitmap : BitVec 16, bitmap &&& ~~~s.keys = 0 ∧ bitmap ≠ 0) ∧
    (∃ (bitmap : BitVec 16) (k : Nat), k < 16 ∧ (bitmap &&& ~~~s.keys).getLsbD k = true ∧
      ∀ j < k, (bitmap &&& ~~~s.keys).getLsbD j = false) :=
  ⟨{ State.reset with keys := 0x0001 }, ⟨rfl, rfl⟩, ⟨0x0001, by decide, by decide⟩, ⟨0x8001, 15, by decide, by decide, by decide⟩⟩

theorem witness_UpdateInputDeliversTheLowestNewKey :
    (∃ s : State, s.fault.code ≠ 0) ∧ (∃ s : State, s.fault.code = 0 ∧ s.wait = false) ∧
    (∃ (s : State) (bitmap : BitVec 16), s.fault.code = 0 ∧ s.wait = true ∧ bitmap &&& ~~~s.keys = 0) ∧
    (∃ (s : State) (bitmap : BitVec 16), s.fault.code = 0 ∧ s.wait = true ∧ bitmap &&& ~~~s.keys ≠ 0) :=
  ⟨⟨broken, by decide⟩, ⟨State.reset, rfl, rfl⟩, ⟨{ State.reset with wait := true, keys := 0xFFFF }, 0xFFFF, rfl, rfl, by decide⟩,
    ⟨{ State.reset with wait := true }, 0x8000, rfl, rfl, by decide⟩⟩

theorem witness_TicksCountDownToZero : ∃ s : State, s.fault.code = 0 ∧ s.dt = 255 :=
  ⟨{ State.reset with dt := 255 }, rfl, rfl⟩

theorem witness_RunKeepsKeysAndWait : ∃ s : State, s.wait = true := ⟨{ State.reset with wait := true }, rfl⟩

theorem witness_CreateLoadsFontAndImage : ∃ p : Params, p.wellFormed = true ∧
    (∃ image : List Byte, image.length ≤ 3584 ∧ image.length = 3584) ∧
    (∃ image : List Byte, 3584 < image.length ∧ image.length = 3585) ∧ (∃ image : List Byte, image.length = 0) :=
  ⟨{ fbW := 8, fbH := 15, font := defaultFont }, by decide, ⟨List.replicate 3584 0, by simp only [List.length_replicate, le_refl, and_self]⟩,
    ⟨List.replicate 3585 0, by simp only [List.length_replicate]; decide⟩, ⟨[], rfl⟩⟩

theorem witness_OversizedImageIsRefused : ∃ image : List Byte, 3584 < image.length ∧ image.length = 3585 :=
  ⟨List.replicate 3585 0, by simp only [List.length_replicate]; decide⟩

theorem witness_FramebufferReadIsRowMajor : ∃ s : State, ∃ px < s.params.fbW, ∃ py < s.params.fbH, px = 63 ∧ py = 31 :=
  ⟨State.reset, 63, by decide, 31, by decide, rfl, rfl⟩

/-- The frames' one hypothesis is that `exec` answers a next state. It does, at the last byte of memory, in the forms that still
fit there and in those that fault. -/
theorem witness_frames :
    (∀ i ∈ ([.ldImm 1 2, .addImm 1 2, .ldReg 1 2, .or 1 2, .and 1 2, .xor 1 2, .ldVxDt 1, .addReg 15 1, .sub 15 1, .shr 15 1,
        .subn 15 1, .shl 15 1, .rnd 1 2] : List Instr), ∃ t, exec i lastByte = .next t) ∧
    (∀ i ∈ ([.jp 0xFFF, .jpV0 0xFFF, .seImm 1 2, .sneImm 1 2, .seReg 1 2, .sneReg 1 2, .skp 1, .sknp 1, .ret, .call 1, .ldI 1,
        .addI 1, .ldF 1, .ldDtVx 1, .ldStVx 1, .ldVxK 1] : List Instr), ∃ t, exec i lastByte = .next t) ∧
    (∀ i ∈ ([.ldB 1, .ldMemVx 0, .ldMemVx 1, .ldVxMem 0, .ldVxMem 1, .cls, .drw 0 1 1, .drw 0 1 2] : List Instr),
      ∃ t, exec i lastByte = .next t) := by
  refine ⟨?_, ?_, ?_⟩ <;> intro i hi <;> fin_cases hi <;> exact ⟨_, rfl⟩

/-- The frames' clauses on a fault: a state and a form of each instruction that can fault, in which the record changes. -/
theorem witness_frames_fault :
    (∃ t, exec (.call 1) { State.reset with sp := 16 } = .next t ∧ t.fault ≠ State.reset.fault) ∧
    (∃ t, exec .ret State.reset = .next t ∧ t.fault ≠ State.reset.fault) ∧
    (∃ t, exec (.skp 1) (v 1 16 State.reset) = .next t ∧ t.fault ≠ State.reset.fault) ∧
    (∃ t, exec (.sknp 1) (v 1 16 State.reset) = .next t ∧ t.fault ≠ State.reset.fault) ∧
    (∃ t, exec (.ldB 1) lastByte = .next t ∧ t.fault ≠ lastByte.fault) ∧
    (∃ t, exec (.ldMemVx 1) lastByte = .next t ∧ t.fault ≠ lastByte.fault) ∧
    (∃ t, exec (.ldVxMem 1) lastByte = .next t ∧ t.fault ≠ lastByte.fault) ∧
    (∃ t, exec (.drw 0 1 2) lastByte = .next t ∧ t.fault ≠ lastByte.fault) :=
  ⟨⟨_, rfl, by decide⟩, ⟨_, rfl, by decide⟩, ⟨_, rfl, by decide⟩, ⟨_, rfl, by decide⟩, ⟨_, rfl, by decide⟩,
    ⟨_, rfl, by decide⟩, ⟨_, rfl, by decide⟩, ⟨_, rfl, by decide⟩⟩

end Sys2Proof.Tests
end

section
/-! The opcode map of spec/30_encoding.md R96 against the decoder of R94 and R95. The mask of a row covers exactly the digits
that the decoder dispatches on in the row's group, so a word that matches the row decodes as the row's own value does, up to the
operands. That no two rows overlap follows: one word decodes to one instruction, which belongs to one row. -/

namespace Sys2Proof

/-- The digits the decoder dispatches on in the group of `op`: all four, `op` and `n`, `op` and `nn`, or `op` alone (R94, R95). -/
def dispatchMask (op : Nibble) : Word :=
  match op.toNat with
  | 0x0 => 0xFFFF
  | 0x5 | 0x8 | 0x9 => 0xF00F
  | 0xE | 0xF => 0xF0FF
  | _ => 0xF000

/-- The row of R96 that the answer of a decoder belongs to, when it is an instruction. -/
def decodedRow (d : Except DecodeError Instr) : Option OpRow := d.toOption.map rowOf

theorem decodedRow_eq_some {d : Except DecodeError Instr} {r : OpRow} :
    decodedRow d = some r ↔ ∃ i, d = .ok i ∧ rowOf i = r := by
  cases d <;> simp [decodedRow, Except.toOption]

/-! ### The rows of the table -/

theorem opcodeTable_mask : ∀ r ∈ opcodeTable, r.mask = dispatchMask (fieldOp r.value) := by decide

theorem opcodeTable_value_decodes : ∀ r ∈ opcodeTable, decodedRow (decodeWord r.value) = some r := by decide

section Digits

variable {w v : Word}

/-! ### The digits a mask fixes -/

theorem extractLsb'_eq_of_masked {m : Word} {k n : Nat} (hm : m.extractLsb' k n = BitVec.allOnes n) (h : w &&& m = v) :
    w.extractLsb' k n = v.extractLsb' k n := by
  rw [← h, BitVec.extractLsb'_and, hm, BitVec.and_allOnes]

theorem fieldOp_dispatchMask : ∀ op, fieldOp (dispatchMask op) = BitVec.allOnes 4 := by decide

theorem dispatchMask_of_group0 : ∀ op : Nibble, op.toNat = 0 → dispatchMask op = BitVec.allOnes 16 := by decide

theorem fieldN_dispatchMask : ∀ op : Nibble, op.toNat ∈ [0x5, 0x8, 0x9] →
    fieldN (dispatchMask op) = BitVec.allOnes 4 := by decide

theorem fieldNN_dispatchMask : ∀ op : Nibble, 0xE ≤ op.toNat → fieldNN (dispatchMask op) = BitVec.allOnes 8 := by decide

/-! ### Each group decodes alike the words that agree on its digits -/

theorem decodedRow_decodeIfN0_congr {i j : Instr} (hn : fieldN w = fieldN v) (hr : rowOf i = rowOf j) :
    decodedRow (decodeIfN0 w i) = decodedRow (decodeIfN0 v j) := by
  unfold decodeIfN0
  rw [hn]
  split
  · exact congrArg some hr
  · rfl

theorem decodedRow_decodeGroup8_congr (hn : fieldN w = fieldN v) :
    decodedRow (decodeGroup8 w) = decodedRow (decodeGroup8 v) := by
  unfold decodeGroup8
  rw [hn]
  split <;> rfl

theorem decodedRow_decodeGroupE_congr (hnn : fieldNN w = fieldNN v) :
    decodedRow (decodeGroupE w) = decodedRow (decodeGroupE v) := by
  unfold decodeGroupE
  rw [hnn]
  split <;> rfl

theorem decodedRow_decodeGroupF_congr (hnn : fieldNN w = fieldNN v) :
    decodedRow (decodeGroupF w) = decodedRow (decodeGroupF v) := by
  unfold decodeGroupF
  rw [hnn]
  split <;> rfl

theorem decodedRow_decodeWord_of_masked (h : w &&& dispatchMask (fieldOp v) = v) :
    decodedRow (decodeWord w) = decodedRow (decodeWord v) := by
  have hop : fieldOp w = fieldOp v := extractLsb'_eq_of_masked (fieldOp_dispatchMask _) h
  have hn (hm : (fieldOp v).toNat ∈ [0x5, 0x8, 0x9]) : fieldN w = fieldN v :=
    extractLsb'_eq_of_masked (fieldN_dispatchMask _ hm) h
  have hnn (hm : 0xE ≤ (fieldOp v).toNat) : fieldNN w = fieldNN v :=
    extractLsb'_eq_of_masked (fieldNN_dispatchMask _ hm) h
  unfold decodeWord
  rw [hop]
  split
  case h_1 ho =>
    rw [dispatchMask_of_group0 _ ho, BitVec.and_allOnes] at h
    rw [h]
  case h_6 ho => exact decodedRow_decodeIfN0_congr (hn (by simp [ho])) rfl
  case h_9 ho => exact decodedRow_decodeGroup8_congr (hn (by simp [ho]))
  case h_10 ho => exact decodedRow_decodeIfN0_congr (hn (by simp [ho])) rfl
  case h_15 ho => exact decodedRow_decodeGroupE_congr (hnn ho.ge)
  case h_16 => exact decodedRow_decodeGroupF_congr (hnn (by grind))
  -- the ten groups without a minor digit
  all_goals rfl

end Digits

theorem decodeWord_of_row {w : Word} {r : OpRow} (hr : r ∈ opcodeTable) (h : w &&& r.mask = r.value) :
    ∃ i, decodeWord w = .ok i ∧ rowOf i = r := by
  rw [opcodeTable_mask r hr] at h
  rw [← decodedRow_eq_some, decodedRow_decodeWord_of_masked h, opcodeTable_value_decodes r hr]

theorem opcodeTable_no_overlap {w : Word} {a b : OpRow} (ha : a ∈ opcodeTable) (hb : b ∈ opcodeTable)
    (hwa : a.matchesWord w = true) (hwb : b.matchesWord w = true) : a = b := by
  obtain ⟨i, hi, rfl⟩ := decodeWord_of_row ha (beq_iff_eq.mp hwa)
  obtain ⟨j, hj, rfl⟩ := decodeWord_of_row hb (beq_iff_eq.mp hwb)
  cases hi.symm.trans hj
  rfl

/-- Settles O3: a row's mask covers the digits the decoder dispatches on, and no two rows overlap because the decoder is a
function. -/
theorem rowMatchGivesTheInstruction : Obligations.RowMatchGivesTheInstruction :=
  ⟨rfl, fun _ _ ha _ hb => opcodeTable_no_overlap ha hb, fun _ _ hr => decodeWord_of_row hr⟩

end Sys2Proof
end

section
/-! The jumps and the register skips of spec/41_control_flow.md (R151, R153 to R157): each completes and writes `PC` alone, so
what is left to say is which value. -/

namespace Sys2Proof.Machine

/-- The indexed sum of R157, at the width of `PC`, is the sum of the numbers reduced to 12 bits. -/
theorem indexedTarget_eq_ofNat (nnn : Addr) (v0 : Byte) :
    indexedTarget nnn v0 = BitVec.ofNat 12 (nnn.toNat + v0.toNat) := by
  rw [indexedTarget, BitVec.ofNat_add, BitVec.ofNat_toNat, BitVec.ofNat_toNat, BitVec.setWidth_eq]

/-- A skip on a test that decides `c` (R124), in the terms of `c`. -/
theorem State.skipIf_of_iff {s : State} {test : Bool} {c : Prop} [Decidable c] (h : test = true ↔ c) :
    s.skipIf test = { s with pc := if c then s.pc + 2 else s.pc } := by
  rw [State.skipIf_eq]
  simp only [h, State.setPc]

/-- Settles O20: `1nnn` is the one update `setPc nnn`. -/
theorem jumpSetsThePc : Obligations.JumpSetsThePc :=
  fun _ _ => rfl

/-- Settles O23: the four instructions are one skip, on the four tests. -/
theorem skipsAdvanceThePc : Obligations.SkipsAdvanceThePc :=
  fun _ _ _ _ =>
    ⟨congrArg Host.Outcome.next (State.skipIf_of_iff beq_iff_eq),
      congrArg Host.Outcome.next (State.skipIf_of_iff bne_iff_ne),
      congrArg Host.Outcome.next (State.skipIf_of_iff beq_iff_eq),
      congrArg Host.Outcome.next (State.skipIf_of_iff bne_iff_ne)⟩

/-- Settles O24: `Bnnn` sets `PC` to the indexed sum, and the wrap of that sum is the reduction modulo 4096. -/
theorem indexedJumpAddsV0 : Obligations.IndexedJumpAddsV0 := by
  intro nnn s
  rw [← indexedTarget_eq_ofNat]
  rfl

end Sys2Proof.Machine
end

section
/-! The loads, the copy and the immediate addition of spec/42_alu.md (R171 to R173): each completes with one `setReg`, so what
it leaves unchanged is the frame of that update, and only the value written is left to say. -/

namespace Sys2Proof.Machine

/-- Settles O25: both are the one update `setReg x`, of `nn` and of `V[y]`. -/
theorem loadsAndCopiesStoreTheValue : Obligations.LoadsAndCopiesStoreTheValue :=
  fun x y nn s =>
    ⟨⟨s.setReg x nn, rfl, writesOnlyReg_setReg x nn⟩, ⟨s.setReg x (s.reg y), rfl, writesOnlyReg_setReg x (s.reg y)⟩⟩

/-- Settles O26: the one update `setReg x` of the 8-bit sum, which is the sum of the numbers reduced modulo 256. -/
theorem addImmediateWrapsWithoutFlag : Obligations.AddImmediateWrapsWithoutFlag := by
  intro x nn s
  rw [← BitVec.add_def]
  exact ⟨s.setReg x (s.reg x + nn), rfl, writesOnlyReg_setReg x (s.reg x + nn)⟩

end Sys2Proof.Machine
end

section
/-! The three instructions of spec/43_index_memory.md that set `I` (R200 to R202): each completes with one `setI`, so what is
left to say is which value. -/

namespace Sys2Proof.Machine

/-- The offset of R201 is the same 12-bit sum as the indexed target of R157. -/
theorem offsetAddress_eq_ofNat (i0 : Addr) (vx : Byte) :
    offsetAddress i0 vx = BitVec.ofNat 12 (i0.toNat + vx.toNat) :=
  indexedTarget_eq_ofNat i0 vx

/-- The glyph's address (R202), at the width of `I`, is the product of the numbers reduced to 12 bits. -/
theorem glyphAddress_eq_ofNat (vx : Byte) : glyphAddress vx = BitVec.ofNat 12 (vx.toNat * 5) := by
  rw [BitVec.ofNat_mul, BitVec.ofNat_toNat]
  rfl

/-- Settles O33: the three are the one update `setI`, of `nnn`, of the wrapped sum and of the scaled register. -/
theorem indexRegisterIsSetAddedScaled : Obligations.IndexRegisterIsSetAddedScaled := by
  intro nnn x s
  rw [← offsetAddress_eq_ofNat, ← glyphAddress_eq_ofNat]
  exact ⟨rfl, rfl, rfl⟩

end Sys2Proof.Machine
end

section
/-! Clear-screen of spec/44_display.md (R220): it completes with one `setFb`, so what it leaves unchanged is the frame of that
update, and only the blank framebuffer's pixels and size are left to say. -/

namespace Sys2Proof.Machine

variable {s : State}

theorem sameBut_setFb (f : List Bool) : sameBut [.fb] s (s.setFb f) := by constructor <;> simp

/-- A blank framebuffer reads off at every pair of coordinates, those beyond the screen included (R220). -/
theorem State.setFb_blankFb_pixel (p : Params) (px py : Nat) : (s.setFb (blankFb p)).pixel px py = false := by
  rw [State.pixel_eq, State.setFb_fb, blankFb_getD]

/-- Settles O39: `00E0` is the one update `setFb` of the blank framebuffer. -/
theorem clearScreenTurnsEveryPixelOff : Obligations.ClearScreenTurnsEveryPixelOff :=
  fun s =>
    ⟨s.setFb (blankFb s.params), rfl, State.setFb_blankFb_pixel s.params, blankFb_length s.params,
      fun r _ => s.setFb_reg _ r, rfl, sameBut_setFb (blankFb s.params)⟩

end Sys2Proof.Machine
end

section
/-! The timers and the key wait of spec/45_keypad_timers.md (R242, R244 to R246). Each instruction completes with one named
update; the wait that `Fx0A` begins is then ended by `update_input` (spec/40_step_cycle_and_host_ops.md R130), so what a tick and
an input do to a CORE that is not FAULTED is said here once. -/

namespace Sys2Proof.Machine

variable {s : State} {bitmap : BitVec 16} {k : Nat}

/-- Settles O44: the three are the updates `setReg x`, `setDt` and `setSt`. -/
theorem timersAreReadAndSet : Obligations.TimersAreReadAndSet :=
  fun x s => ⟨⟨s.setReg x s.dt, rfl, writesOnlyReg_setReg x s.dt⟩, rfl, rfl⟩

/-! ### A tick (R128) -/

/-- A timer one tick later, at the width of the timer. -/
theorem countDown_eq_ofNat (b : Byte) : countDown b = BitVec.ofNat 8 (b.toNat - 1) := by
  rw [← countDown_toNat, BitVec.ofNat_toNat, BitVec.setWidth_eq]

theorem State.tickTimers_eq_ofNat (h : s.fault.code = 0) :
    s.tickTimers = { s with dt := BitVec.ofNat 8 (s.dt.toNat - 1), st := BitVec.ofNat 8 (s.st.toNat - 1) } := by
  rw [State.tickTimers_of_running h, countDown_eq_ofNat, countDown_eq_ofNat]
  rfl

/-! ### An input (R130) -/

/-- A set bit with no lower set bit is the lowest key: the converse of `lowestKey_some`. -/
theorem lowestKey_eq_some {b : BitVec 16} (hk : k < 16) (hset : b.getLsbD k = true)
    (hlow : ∀ j < k, b.getLsbD j = false) : lowestKey b = some k :=
  List.find?_range_eq_some.mpr ⟨hset, List.mem_range.mpr hk, fun j hj => by simp [hlow j hj]⟩

theorem lowestKey_zero : lowestKey 0 = none := by decide

/-- Without a newly pressed key an input stores the bitmap alone, whether or not the CORE waits. -/
theorem State.updateInput_of_no_new_key (hf : s.fault.code = 0) (h : newlyPressed s.keys bitmap = 0) :
    s.updateInput bitmap = s.setKeys bitmap := by
  have hnone : lowestKey (newlyPressed s.keys bitmap) = none := by rw [h, lowestKey_zero]
  cases hw : s.wait <;> simp [State.updateInput, State.not_faulted_iff.mpr hf, hnone, hw]

/-- The lowest newly pressed key ends a wait. -/
theorem State.updateInput_of_lowest_new_key (hf : s.fault.code = 0) (hw : s.wait = true)
    (hk : lowestKey (newlyPressed s.keys bitmap) = some k) :
    s.updateInput bitmap = (s.deliverKey k).setKeys bitmap := by
  simp [State.updateInput, State.not_faulted_iff.mpr hf, hw, hk]

/-! ### The wait (R244) -/

/-- Settles O45: `Fx0A` is the one update `startWait x`, and the state it leaves waits without a fault. -/
theorem keyWaitHoldsUntilAPress : Obligations.KeyWaitHoldsUntilAPress := by
  intro x s ⟨hf, _⟩
  refine ⟨s.startWait x, rfl, rfl, step_of_waiting rfl, State.tickTimers_eq_ofNat hf,
    fun _ hnone => State.updateInput_of_no_new_key hf hnone, fun bitmap k hk hset hlow => ?_⟩
  have hpress : (s.startWait x).updateInput bitmap = ((s.startWait x).deliverKey k).setKeys bitmap :=
    State.updateInput_of_lowest_new_key hf rfl (lowestKey_eq_some hk hset hlow)
  rw [hpress]
  exact ⟨(s.startWait x).setReg_reg_self x _, rfl, rfl⟩

end Sys2Proof.Machine
end

section
/-! The decoder against the encoder (spec/30_encoding.md R91 to R97). Every word the encoder writes decodes through its fields,
and every word that decodes is put together again from its fields; the words that do not decode are listed group by group. -/

namespace Sys2Proof

/-! ### Decoding what the encoder writes -/

/-- The cases are grouped by the digits the decoder reads: all, `op`, `op` and `n`, `op` and `nn` (R94). -/
theorem decodeWord_encode (i : Instr) : decodeWord (encode i) = .ok i := by
  cases i with
  | cls | ret => rfl
  | jp | call | seImm | sneImm | ldImm | addImm | ldI | jpV0 | rnd | drw => simp [decodeWord, encode]
  | seReg | sneReg => simp [decodeWord, encode, decodeIfN0]
  | ldReg | or | and | xor | addReg | sub | shr | subn | shl => simp [decodeWord, encode, decodeGroup8]
  | skp | sknp => simp [decodeWord, encode, decodeGroupE]
  | ldVxDt | ldVxK | ldDtVx | ldStVx | addI | ldF | ldB | ldMemVx | ldVxMem => simp [decodeWord, encode, decodeGroupF]

/-- Settles O1: the two bytes make the encoded word again, and its fields are the instruction's operands. -/
theorem decodeOfEncodeIsTheInstruction : Obligations.DecodeOfEncodeIsTheInstruction := by
  intro i rest
  have hbytes : encodeBytes i ++ rest = hiByte (encode i) :: loByte (encode i) :: rest := rfl
  rw [hbytes, decodeBytes, wordOfBytes_bytes, decodeWord_encode]
  rfl

/-! ### Encoding what the decoder reads -/

/-! Each lemma takes the digits as the decoder compares them, as numbers. -/

section Fields

variable {w : Word} {i : Instr} {op n : Nibble} {nn : Byte}

theorem encodeA_of_op (hop : (fieldOp w).toNat = op.toNat) : encodeA op (fieldNNN w) = w := by
  rw [← BitVec.eq_of_toNat_eq hop, encodeA_fields]

theorem encodeXI_of_op (hop : (fieldOp w).toNat = op.toNat) : encodeXI op (fieldX w) (fieldNN w) = w := by
  rw [← BitVec.eq_of_toNat_eq hop, encodeXI_fields]

theorem encodeXI_of_op_minor (hop : (fieldOp w).toNat = op.toNat) (hnn : (fieldNN w).toNat = nn.toNat) :
    encodeXI op (fieldX w) nn = w := by
  rw [← BitVec.eq_of_toNat_eq hnn, encodeXI_of_op hop]

theorem encodeXYN_of_op (hop : (fieldOp w).toNat = op.toNat) : encodeXYN op (fieldX w) (fieldY w) (fieldN w) = w := by
  rw [← BitVec.eq_of_toNat_eq hop, encodeXYN_fields]

theorem encodeXYN_of_op_minor (hop : (fieldOp w).toNat = op.toNat) (hn : (fieldN w).toNat = n.toNat) :
    encodeXYN op (fieldX w) (fieldY w) n = w := by
  rw [← BitVec.eq_of_toNat_eq hn, encodeXYN_of_op hop]

theorem encode_of_decodeGroup0 (h : decodeGroup0 w = .ok i) : encode i = w := by
  unfold decodeGroup0 at h
  split at h <;> cases h
  all_goals exact (BitVec.eq_of_toNat_eq ‹_›).symm

theorem encode_of_decodeIfN0 {j : Instr} (h : decodeIfN0 w j = .ok i)
    (hj : (fieldN w).toNat = (0 : Nibble).toNat → encode j = w) : encode i = w := by
  unfold decodeIfN0 at h
  split at h <;> cases h
  exact hj (congrArg BitVec.toNat ‹_›)

theorem encode_of_decodeGroup8 (hop : (fieldOp w).toNat = 8) (h : decodeGroup8 w = .ok i) : encode i = w := by
  unfold decodeGroup8 at h
  dsimp only at h
  split at h <;> cases h
  all_goals exact encodeXYN_of_op_minor hop ‹_›

theorem encode_of_decodeGroupE (hop : (fieldOp w).toNat = 14) (h : decodeGroupE w = .ok i) : encode i = w := by
  unfold decodeGroupE at h
  split at h <;> cases h
  all_goals exact encodeXI_of_op_minor hop ‹_›

theorem encode_of_decodeGroupF (hop : (fieldOp w).toNat = 15) (h : decodeGroupF w = .ok i) : encode i = w := by
  unfold decodeGroupF at h
  dsimp only at h
  split at h <;> cases h
  all_goals exact encodeXI_of_op_minor hop ‹_›

end Fields

/-- Settles O2: each group keeps every field of the word, the digits it dispatches on included. -/
theorem encodeOfDecodeIsTheWord : Obligations.EncodeOfDecodeIsTheWord := by
  intro w i h
  unfold decodeWord at h
  split at h
  case h_1 => exact encode_of_decodeGroup0 h
  case h_6 hop => exact encode_of_decodeIfN0 h (encodeXYN_of_op_minor hop)
  case h_9 hop => exact encode_of_decodeGroup8 hop h
  case h_10 hop => exact encode_of_decodeIfN0 h (encodeXYN_of_op_minor hop)
  case h_15 hop => exact encode_of_decodeGroupE hop h
  case h_16 =>
    have hlt : (fieldOp w).toNat < 16 := (fieldOp w).isLt
    exact encode_of_decodeGroupF (by grind) h
  case h_2 hop | h_3 hop | h_11 hop | h_12 hop => cases h; exact encodeA_of_op hop
  case h_14 hop => cases h; exact encodeXYN_of_op hop
  all_goals cases h; exact encodeXI_of_op ‹_›

/-! ### The words that decode, and those that do not -/

/-- The statements per instruction of Laws/PerInstr.lean, as one. -/
theorem rowOf_matchesWord_encode (i : Instr) : (rowOf i).matchesWord (encode i) = true :=
  match i with
  | .cls => Laws.EncodedRow.cls
  | .ret => Laws.EncodedRow.ret
  | .jp nnn => Laws.EncodedRow.jp nnn
  | .call nnn => Laws.EncodedRow.call nnn
  | .seImm x nn => Laws.EncodedRow.seImm x nn
  | .sneImm x nn => Laws.EncodedRow.sneImm x nn
  | .seReg x y => Laws.EncodedRow.seReg x y
  | .ldImm x nn => Laws.EncodedRow.ldImm x nn
  | .addImm x nn => Laws.EncodedRow.addImm x nn
  | .ldReg x y => Laws.EncodedRow.ldReg x y
  | .or x y => Laws.EncodedRow.or x y
  | .and x y => Laws.EncodedRow.and x y
  | .xor x y => Laws.EncodedRow.xor x y
  | .addReg x y => Laws.EncodedRow.addReg x y
  | .sub x y => Laws.EncodedRow.sub x y
  | .shr x y => Laws.EncodedRow.shr x y
  | .subn x y => Laws.EncodedRow.subn x y
  | .shl x y => Laws.EncodedRow.shl x y
  | .sneReg x y => Laws.EncodedRow.sneReg x y
  | .ldI nnn => Laws.EncodedRow.ldI nnn
  | .jpV0 nnn => Laws.EncodedRow.jpV0 nnn
  | .rnd x nn => Laws.EncodedRow.rnd x nn
  | .drw x y n => Laws.EncodedRow.drw x y n
  | .skp x => Laws.EncodedRow.skp x
  | .sknp x => Laws.EncodedRow.sknp x
  | .ldVxDt x => Laws.EncodedRow.ldVxDt x
  | .ldVxK x => Laws.EncodedRow.ldVxK x
  | .ldDtVx x => Laws.EncodedRow.ldDtVx x
  | .ldStVx x => Laws.EncodedRow.ldStVx x
  | .addI x => Laws.EncodedRow.addI x
  | .ldF x => Laws.EncodedRow.ldF x
  | .ldB x => Laws.EncodedRow.ldB x
  | .ldMemVx x => Laws.EncodedRow.ldMemVx x
  | .ldVxMem x => Laws.EncodedRow.ldVxMem x

theorem rowOf_mem_opcodeTable (i : Instr) : rowOf i ∈ opcodeTable := by
  cases i <;> simp [opcodeTable, rowOf]

theorem wordWellFormed_encode (i : Instr) : wordWellFormed (encode i) = true :=
  List.any_eq_true.mpr ⟨rowOf i, rowOf_mem_opcodeTable i, rowOf_matchesWord_encode i⟩

/-- A word is an instruction if and only if it matches a row (R95). -/
theorem decodeWord_ok_iff (w : Word) : (∃ i, decodeWord w = .ok i) ↔ wordWellFormed w = true := by
  constructor
  · rintro ⟨i, hi⟩
    rw [← encodeOfDecodeIsTheWord w i hi]
    exact wordWellFormed_encode i
  · intro h
    obtain ⟨r, hr, hw⟩ := List.any_eq_true.mp h
    obtain ⟨i, hi, _⟩ := decodeWord_of_row hr (beq_iff_eq.mp hw)
    exact ⟨i, hi⟩

theorem decodeWord_error_iff (w : Word) : (∃ e, decodeWord w = .error e) ↔ wordWellFormed w = false := by
  rw [← Bool.not_eq_true, ← decodeWord_ok_iff]
  cases decodeWord w <;> simp

/-- Settles O4: a word that decodes is the encoding of its instruction, which matches that instruction's row; a word that
matches a row decodes to that row's instruction. -/
theorem wordIsInstructionIffARowMatches : Obligations.WordIsInstructionIffARowMatches :=
  ⟨decodeWord_ok_iff, fun w hw => by fin_cases hw <;> rfl⟩

/-! Within a group, a word is invalid exactly when its minor digits are none of those the group dispatches on. -/

section Invalid

variable (w : Word)

theorem decodeGroup0_invalid_iff :
    decodeGroup0 w = .error (.invalidWord w) ↔ w ≠ 0x00E0 ∧ w ≠ 0x00EE := by
  unfold decodeGroup0
  split
  case h_1 h => simp [BitVec.toNat_eq, h]
  case h_2 h => simp [BitVec.toNat_eq, h]
  case h_3 h h' => simpa [BitVec.toNat_eq] using ⟨h, h'⟩

theorem decodeIfN0_invalid_iff (i : Instr) : decodeIfN0 w i = .error (.invalidWord w) ↔ fieldN w ≠ 0 := by
  simp [decodeIfN0]

theorem decodeGroup8_invalid_iff : decodeGroup8 w = .error (.invalidWord w) ↔
    fieldN w ∈ ([0x8, 0x9, 0xA, 0xB, 0xC, 0xD, 0xF] : List Nibble) := by
  have hminor : ∀ n : Nibble, n ∈ ([0x8, 0x9, 0xA, 0xB, 0xC, 0xD, 0xF] : List Nibble) ↔
      n.toNat ∉ [0x0, 0x1, 0x2, 0x3, 0x4, 0x5, 0x6, 0x7, 0xE] := by decide
  rw [hminor]
  unfold decodeGroup8
  dsimp only
  split <;> simp_all

theorem decodeGroupE_invalid_iff :
    decodeGroupE w = .error (.invalidWord w) ↔ fieldNN w ∉ ([0x9E, 0xA1] : List Byte) := by
  unfold decodeGroupE
  split <;> simp_all [BitVec.toNat_eq]

theorem decodeGroupF_invalid_iff : decodeGroupF w = .error (.invalidWord w) ↔
    fieldNN w ∉ ([0x07, 0x0A, 0x15, 0x18, 0x1E, 0x29, 0x33, 0x55, 0x65] : List Byte) := by
  unfold decodeGroupF
  dsimp only
  split <;> simp_all [BitVec.toNat_eq]

end Invalid

/-- Settles O5: the group a word is in leaves one clause of the table that can hold, and the group's own rule is that clause. -/
theorem invalidWordsAreTheTabledOnes : Obligations.InvalidWordsAreTheTabledOnes := by
  intro w
  have hop (k : Nat) (h : (fieldOp w).toNat = k) : fieldOp w = BitVec.ofNat 4 k := by
    rw [← h, BitVec.ofNat_toNat, BitVec.setWidth_eq]
  unfold decodeWord
  split
  case h_1 h => simp [decodeGroup0_invalid_iff, hop _ h]
  case h_6 h => simp [decodeIfN0_invalid_iff, hop _ h]
  case h_9 h => simp [decodeGroup8_invalid_iff, hop _ h]
  case h_10 h => simp [decodeIfN0_invalid_iff, hop _ h]
  case h_15 h => simp [decodeGroupE_invalid_iff, hop _ h]
  case h_16 => 
    have hlt : (fieldOp w).toNat < 16 := (fieldOp w).isLt
    simp [decodeGroupF_invalid_iff, hop 15 (by grind)]
  all_goals simp [hop _ ‹_›]

/-- Settles O6: the seven words are closed, so the decoder computes each answer. -/
theorem writtenOutWordsDecode : Obligations.WrittenOutWordsDecode := by
  refine ⟨?_, ?_, ?_, ?_, ?_, ?_, ?_⟩ <;> decide

end Sys2Proof
end

section
/-! What `exec` can do, said once (spec/60_exceptions.md R261, R262, R271): the effect of each of the eight instructions with an
execution check where the check holds, the fault record and nothing else where it does not, and what every instruction keeps. -/

namespace Sys2Proof.Machine

variable {s t : State} {i : Instr} {f : Fault} {x y : RegIdx} {n : Nibble}

/-! ### The checked instructions where the check holds -/

theorem exec_ret_of_pos (h : s.sp.val ≠ 0) :
    exec .ret s = .next ({ s with sp := ⟨s.sp.val - 1, by omega⟩ }.setPc s.top) := by
  rw [exec, execRet, State.pop_ok h]
  rfl

theorem exec_call_of_lt (nnn : Addr) (h : s.sp.val < 16) :
    exec (.call nnn) s =
      .next ({ s with stack := s.stack.set s.sp.val s.pc h, sp := ⟨s.sp.val + 1, by omega⟩ }.setPc nnn) := by
  rw [exec, execCall, State.push_ok h]
  rfl

theorem exec_skp (h : faultOf (.skp x) s = none) :
    exec (.skp x) s = .next (s.skipIf (s.keys.getLsbD (s.reg x).toNat)) := by
  rw [exec, execSkp, State.keyHeld_ok (by simpa [faultOf] using h)]
  rfl

theorem exec_sknp (h : faultOf (.sknp x) s = none) :
    exec (.sknp x) s = .next (s.skipIf (!s.keys.getLsbD (s.reg x).toNat)) := by
  rw [exec, execSknp, State.keyHeld_ok (by simpa [faultOf] using h)]
  rfl

theorem digits_fit (h : faultOf (.ldB x) s = none) : s.base + (decimalDigits (s.reg x)).length ≤ memSize := by
  have hi : s.i.toNat < 4094 := by simpa [faultOf] using h
  simp only [decimalDigits_length, State.base, memSize]
  omega

theorem exec_ldB (h : faultOf (.ldB x) s = none) :
    exec (.ldB x) s = .next (s.setMem (s.mem.writeList s.base (decimalDigits (s.reg x)))) := by
  rw [exec, execLdB, State.store_ok (digits_fit h)]
  rfl

theorem registers_fit (h : faultOf (.ldMemVx x) s = none) : s.base + (s.regRange x).length ≤ memSize := by
  have hi : s.i.toNat + x.toNat < 4096 := by simpa [faultOf] using h
  simp only [State.regRange_length, State.base, memSize]
  omega

theorem exec_ldMemVx (h : faultOf (.ldMemVx x) s = none) :
    exec (.ldMemVx x) s = .next (s.setMem (s.mem.writeList s.base (s.regRange x))) := by
  rw [exec, execLdMemVx, State.store_ok (registers_fit h)]
  rfl

/-- The `n` bytes from `I` on, in ascending order (R65): what `Fx65` loads and `Dxyn` draws. -/
def State.bytesAtI (s : State) (n : Nat) : List Byte := (List.range n).map fun k => s.mem.read (s.base + k)

@[simp] theorem State.bytesAtI_length (n : Nat) : (s.bytesAtI n).length = n := by simp [State.bytesAtI]

@[simp] theorem State.bytesAtI_getElem (n k : Nat) (h : k < (s.bytesAtI n).length) :
    (s.bytesAtI n)[k] = s.mem.read (s.i.toNat + k) := by
  simp [State.bytesAtI, State.base]

theorem exec_ldVxMem (h : faultOf (.ldVxMem x) s = none) :
    exec (.ldVxMem x) s = .next (s.setRegsFrom 0 (s.bytesAtI (rangeLength x))) := by
  have hi : s.i.toNat + x.toNat < 4096 := by simpa [faultOf] using h
  rw [exec, execLdVxMem, State.load_ok (.inr (by simp only [rangeLength, State.base, memSize]; omega))]
  rfl

/-- The canvas after the `n` rows at `I` are drawn at `(vx, vy)` on the present screen (R221). -/
def State.drawnCanvas (s : State) (vx vy : Byte) (n : Nibble) : Canvas :=
  Canvas.drawRows s.params vx vy 0 (s.bytesAtI n.toNat) { fb := s.fb, collision := false }

/-- The state that `Dxyn` leaves where it does not fault (R221). -/
def State.drawn (s : State) (x y : RegIdx) (n : Nibble) : State :=
  (s.setFb (s.drawnCanvas (s.reg x) (s.reg y) n).fb).setReg flagReg (flagByte (s.drawnCanvas (s.reg x) (s.reg y) n).collision)

theorem exec_drw (h : faultOf (.drw x y n) s = none) : exec (.drw x y n) s = .next (s.drawn x y n) := by
  have hn : ¬(1 ≤ n.toNat ∧ 4096 ≤ s.i.toNat + n.toNat - 1) := fun hn => by simp [faultOf, hn] at h
  rw [exec, execDrw, State.load_ok (base := s.base) (by simp only [State.base, memSize]; omega)]
  rfl

/-! ### The checked instructions where it does not -/

/-- The fault of the cause table is taken as R262 says, and nothing else happens (R271). -/
theorem exec_of_fault (h : faultOf i s = some f) : exec i s = .next (s.raise s.pc0 (encode i) f) := by
  cases i with
  | ret =>
    obtain ⟨hsp, ⟨⟩⟩ := Option.ite_none_right_eq_some.mp h
    rw [exec, execRet, State.pop_error hsp]; rfl
  | call nnn =>
    obtain ⟨hsp, ⟨⟩⟩ := Option.ite_none_right_eq_some.mp h
    rw [exec, execCall, State.push_error (by omega)]; rfl
  | ldB x =>
    obtain ⟨hi, ⟨⟩⟩ := Option.ite_none_right_eq_some.mp h
    rw [exec, execLdB, State.store_error (by simp only [decimalDigits_length, State.base, memSize]; omega)]; rfl
  | ldMemVx x =>
    obtain ⟨hi, ⟨⟩⟩ := Option.ite_none_right_eq_some.mp h
    rw [exec, execLdMemVx, State.store_error (by simp only [State.regRange_length, State.base, memSize]; omega)]; rfl
  | ldVxMem x =>
    obtain ⟨hi, ⟨⟩⟩ := Option.ite_none_right_eq_some.mp h
    rw [exec, execLdVxMem, State.load_error (by simp only [rangeLength, State.base, memSize]; omega)]; rfl
  | drw x y n =>
    obtain ⟨hi, ⟨⟩⟩ := Option.ite_none_right_eq_some.mp h
    rw [exec, execDrw, State.load_error (by simp only [State.base, memSize]; omega)]; rfl
  | skp x =>
    obtain ⟨hx, ⟨⟩⟩ := Option.ite_none_right_eq_some.mp h
    rw [exec, execSkp, State.keyHeld_error hx]; rfl
  | sknp x =>
    obtain ⟨hx, ⟨⟩⟩ := Option.ite_none_right_eq_some.mp h
    rw [exec, execSknp, State.keyHeld_error hx]; rfl
  | _ => cases h

/-! ### What every completed instruction keeps -/

/-- What no instruction of the table changes when it completes: the parameters, the keys and the fault record; and the
canonical form of memory and the size of the framebuffer, which some instructions write. -/
structure State.Keeps (s t : State) : Prop where
  params : t.params = s.params
  keys : t.keys = s.keys
  fault : t.fault = s.fault
  mem : s.mem.wf = true → t.mem.wf = true
  fb : s.fb.length = s.params.fbW * s.params.fbH → t.fb.length = s.params.fbW * s.params.fbH

theorem State.keeps_setMem {m : Memory} (h : s.mem.wf = true → m.wf = true) : s.Keeps (s.setMem m) := ⟨rfl, rfl, rfl, h, id⟩

theorem State.keeps_skipIf (c : Bool) : s.Keeps (s.skipIf c) := by
  rw [State.skipIf_eq]
  exact ⟨rfl, rfl, rfl, id, id⟩

theorem State.keeps_setRegsFrom (k : Nat) (bs : List Byte) : s.Keeps (s.setRegsFrom k bs) := by
  obtain ⟨v, hv⟩ := s.setRegsFrom_eq bs k
  rw [hv]
  exact ⟨rfl, rfl, rfl, id, id⟩

theorem State.keeps_drawn (x y : RegIdx) (n : Nibble) : s.Keeps (s.drawn x y n) :=
  ⟨rfl, rfl, rfl, id, fun hfb => by simpa [State.drawn, State.drawnCanvas] using hfb⟩

/-- Where the cause table names no fault the instruction completes. -/
theorem exec_of_no_fault (h : faultOf i s = none) : ∃ t, exec i s = .next t ∧ s.Keeps t := by
  cases i with
  | ret => exact ⟨_, exec_ret_of_pos (by simpa [faultOf] using h), rfl, rfl, rfl, id, id⟩
  | call nnn =>
    have hsp : s.sp.val ≠ 16 := by simpa [faultOf] using h
    exact ⟨_, exec_call_of_lt nnn (by omega), rfl, rfl, rfl, id, id⟩
  | skp x => exact ⟨_, exec_skp h, s.keeps_skipIf _⟩
  | sknp x => exact ⟨_, exec_sknp h, s.keeps_skipIf _⟩
  | ldB x => exact ⟨_, exec_ldB h, State.keeps_setMem fun hm => Memory.wf_writeList hm (digits_fit h)⟩
  | ldMemVx x => exact ⟨_, exec_ldMemVx h, State.keeps_setMem fun hm => Memory.wf_writeList hm (registers_fit h)⟩
  | ldVxMem x => exact ⟨_, exec_ldVxMem h, s.keeps_setRegsFrom 0 _⟩
  | drw x y n => exact ⟨_, exec_drw h, s.keeps_drawn x y n⟩
  | cls => exact ⟨_, rfl, rfl, rfl, rfl, id, fun _ => blankFb_length s.params⟩
  | seImm | sneImm | seReg | sneReg => exact ⟨_, rfl, s.keeps_skipIf _⟩
  | _ => exact ⟨_, rfl, rfl, rfl, rfl, id, id⟩

/-- Settles O18: both halves are what `exec` does with and without a fault of the cause table. -/
theorem instructionsFaultExactlyWhenTabled : Obligations.InstructionsFaultExactlyWhenTabled := by
  refine fun i s => ⟨fun f h => exec_of_fault h, fun h => ?_⟩
  obtain ⟨t, ht, hkeeps⟩ := exec_of_no_fault h
  exact ⟨t, ht, hkeeps.fault⟩

/-- What an instruction can do: take its fault of the cause table, or complete. -/
theorem exec_cases (i : Instr) (s : State) :
    (∃ f, faultOf i s = some f ∧ exec i s = .next (s.raise s.pc0 (encode i) f)) ∨
    (faultOf i s = none ∧ ∃ t, exec i s = .next t ∧ s.Keeps t) := by
  cases h : faultOf i s with
  | some f => exact .inl ⟨f, rfl, exec_of_fault h⟩
  | none => exact .inr ⟨rfl, exec_of_no_fault h⟩

/-- Said of a next state: the fault record was written and nothing else, or there was no fault. -/
theorem exec_next_cases (h : exec i s = .next t) : (∃ p w f, t = s.raise p w f) ∨ faultOf i s = none := by
  obtain ⟨f, -, hf⟩ | ⟨hn, -⟩ := exec_cases i s
  · cases hf.symm.trans h
    exact .inl ⟨_, _, f, rfl⟩
  · exact .inr hn

end Sys2Proof.Machine
end

section
/-! The step (spec/40_step_cycle_and_host_ops.md R121 to R123): what it does in each condition of the CORE, that it always has a
next state, and what it leaves when it faults (spec/60_exceptions.md R262, R263, R271). -/

namespace Sys2Proof.Machine

variable {s t : State} {i : Instr} {f : Fault}

theorem step_of_running_at_top (hr : s.running) (hp : s.pc = 0xFFF) :
    step s = .next (s.raiseInFetch (.memoryBounds memSize)) := by
  rw [step_of_running (State.not_faulted_iff.mpr hr.1) hr.2, cycle_at_top hp]

theorem step_of_decoded (hr : s.running) (hp : s.pc ≠ 0xFFF) (hd : decodeWord s.wordAtPc = .ok i) :
    step s = exec i s.advancePc := by
  have hd' : decodeWord s.nextWord = .ok i := hd
  rw [step_of_running (State.not_faulted_iff.mpr hr.1) hr.2, cycle_below_top hp, State.executeWord, hd']

theorem step_of_invalid (hr : s.running) (hp : s.pc ≠ 0xFFF) (hw : wordWellFormed s.wordAtPc = false) :
    step s = .next (s.raiseInDecode s.wordAtPc) := by
  obtain ⟨e, he⟩ := (decodeWord_error_iff s.wordAtPc).mpr hw
  have he' : decodeWord s.nextWord = .error e := he
  rw [step_of_running (State.not_faulted_iff.mpr hr.1) hr.2, cycle_below_top hp, State.executeWord, he']
  rfl

/-- Settles O7: the first two clauses are the two conditions in which a step does nothing. -/
theorem stepIsOneInstructionOrNothing : Obligations.StepIsOneInstructionOrNothing :=
  fun _ => ⟨fun hf => step_of_faulted (State.faulted_iff.mpr hf), step_of_waiting, fun hr hp _ hd => step_of_decoded hr hp hd⟩

/-- Settles O8: the two bytes decode as the word at `PC`. -/
theorem stepRunsTheDecodedInstruction : Obligations.StepRunsTheDecodedInstruction := by
  intro s i hr hp hd
  refine step_of_decoded hr hp ?_
  have hd' : (decodeWord s.wordAtPc).map (fun j => (j, ([] : List Byte))) = .ok (i, []) := hd
  cases hw : decodeWord s.wordAtPc with
  | ok j => rw [hw] at hd'; cases hd'; rfl
  | error e => rw [hw] at hd'; cases hd'

/-- Settles O9: the record of a fetch fault names `PC`, which is 0xFFF. -/
theorem fetchAtTheTopFaults : Obligations.FetchAtTheTopFaults := by
  intro s hr hp
  have hrecord : s.raiseInFetch (.memoryBounds memSize) =
      { s with fault := { code := 4, addr := s.pc, word := 0, info := 4096 } } := rfl
  rw [step_of_running_at_top hr hp, hrecord, hp]

/-- Settles O10: a word that matches no row does not decode. -/
theorem invalidWordFaultsAndChangesNothingElse : Obligations.InvalidWordFaultsAndChangesNothingElse :=
  fun _ hr hp hw => step_of_invalid hr hp hw

/-- Settles O11: nothing, a fault record, or one instruction, which takes its fault or completes. -/
theorem everyStepHasANextState : Obligations.EveryStepHasANextState := by
  intro s
  by_cases hr : s.running
  · by_cases hp : s.pc = 0xFFF
    · exact ⟨_, step_of_running_at_top hr hp⟩
    · cases hw : wordWellFormed s.wordAtPc with
      | false => exact ⟨_, step_of_invalid hr hp hw⟩
      | true =>
        obtain ⟨i, hd⟩ := (decodeWord_ok_iff s.wordAtPc).mpr hw
        rw [step_of_decoded hr hp hd]
        obtain ⟨f, -, hf⟩ | ⟨-, t, ht, -⟩ := exec_cases i s.advancePc
        · exact ⟨_, hf⟩
        · exact ⟨t, ht⟩
  · by_cases hf : s.fault.code = 0
    · have hw : s.wait = true := by simpa [State.running, hf] using hr
      exact ⟨s, step_of_waiting hw⟩
    · exact ⟨s, step_of_faulted (State.faulted_iff.mpr hf)⟩

/-- Settles O17: of the ways a running CORE can step, three write the fault record and one, completing an instruction, keeps it. -/
theorem faultsArePrecise : Obligations.FaultsArePrecise := by
  intro s t hr hstep hfault
  obtain ⟨h | h, -⟩ | ⟨-, -, hp, rfl⟩ | ⟨-, -, hp, -, rfl⟩ | ⟨-, -, hp, i, -, hexec⟩ := step_cases hstep
  · exact absurd hr.1 (State.faulted_iff.mp h)
  · exact absurd (hr.2.symm.trans h) Bool.false_ne_true
  · exact ⟨rfl, rfl, by rw [if_pos hp]; exact hp⟩
  · exact ⟨rfl, rfl, by rw [if_neg hp]; rfl⟩
  · obtain ⟨f, -, hf⟩ | ⟨-, u, hu, hkeeps⟩ := exec_cases i s.advancePc
    · cases hf.symm.trans hexec
      exact ⟨rfl, State.pc0_advancePc, by rw [if_neg hp]; rfl⟩
    · cases hu.symm.trans hexec
      rw [hkeeps.fault] at hfault
      exact absurd hr.1 hfault

/-! ### A store before the fetch (R203, R204, R64) -/

/-- A storing instruction that does not fault changes memory alone, as the spec's table of stored bytes says. -/
theorem exec_store {x : RegIdx} (hi : i = .ldB x ∨ i = .ldMemVx x) (h : faultOf i s = none) :
    ∃ m : Memory, exec i s = .next (s.setMem m) ∧ ∀ a, m.read a = byteAfterStore i s a := by
  obtain rfl | rfl := hi
  · exact ⟨_, exec_ldB h, State.read_digits_stored x⟩
  · exact ⟨_, exec_ldMemVx h, State.read_registers_stored x⟩

/-- Settles O38: the store leaves the CORE running at the same `PC`, so the next step fetches from the memory it left. -/
theorem storeIsSeenByTheNextFetch : Obligations.StoreIsSeenByTheNextFetch := by
  intro i x s hi hr hp hf
  obtain ⟨m, hexec, hread⟩ := exec_store hi hf
  have hword : (s.setMem m).wordAtPc = byteAfterStore i s s.pc.toNat ++ byteAfterStore i s (s.pc.toNat + 1) := by
    rw [← hread, ← hread]
    rfl
  have hr' : (s.setMem m).running := hr
  rw [← hword]
  exact ⟨s.setMem m, hexec, fun j hd => step_of_decoded hr' hp hd, fun hw => step_of_invalid hr' hp hw⟩

end Sys2Proof.Machine
end

section
/-! The invariant (`State.Inv`): the fault records the model writes are legal, and no operation of the host loses a clause. -/

namespace Sys2Proof.Machine

variable {s t : State} {i : Instr} {f : Fault}

/-! ### Legal fault records (R36, R261) -/

theorem encode_masked (i : Instr) : encode i &&& (rowOf i).mask = (rowOf i).value :=
  beq_iff_eq.mp (rowOf_matchesWord_encode i)

theorem FaultRecord.legal_memoryBounds {p : Addr} {w : Word} (h : w = 0 ∧ p = 0xFFF ∨ w &&& 0xF000 = 0xD000 ∨
    w &&& 0xF0FF ∈ ([0xF033, 0xF055, 0xF065] : List Word)) :
    FaultRecord.legal { code := 4, addr := p, word := w, info := 4096 } :=
  .inr (.inr (.inr (.inr (.inl ⟨rfl, rfl, h⟩))))

theorem FaultRecord.legal_keyIndexBounds {p : Addr} {w : Word} {index : Byte} (hindex : 15 < index.toNat)
    (h : w &&& 0xF0FF ∈ ([0xE09E, 0xE0A1] : List Word)) :
    FaultRecord.legal { code := 5, addr := p, word := w, info := index.zeroExtend 13 } := by
  have hinfo : (index.zeroExtend 13).toNat = index.toNat := BitVec.toNat_setWidth_of_le (by decide)
  refine .inr (.inr (.inr (.inr (.inr ⟨rfl, hinfo.symm ▸ hindex, ?_, h⟩))))
  exact hinfo.symm ▸ Nat.le_of_lt_succ index.isLt

/-- The record of an execution fault carries the word of an instruction that can raise it. -/
theorem faultOf_legal (h : faultOf i s = some f) (p : Addr) :
    FaultRecord.legal { code := f.code, addr := p, word := encode i, info := f.info } := by
  have hword := encode_masked i
  cases i with
  | call nnn =>
    obtain ⟨-, ⟨⟩⟩ := Option.ite_none_right_eq_some.mp h
    exact .inr (.inr (.inl ⟨rfl, hword, rfl⟩))
  | ret =>
    obtain ⟨-, ⟨⟩⟩ := Option.ite_none_right_eq_some.mp h
    exact .inr (.inr (.inr (.inl ⟨rfl, rfl, rfl⟩)))
  | drw x y n =>
    obtain ⟨-, ⟨⟩⟩ := Option.ite_none_right_eq_some.mp h
    exact FaultRecord.legal_memoryBounds (.inr (.inl hword))
  | ldB | ldMemVx | ldVxMem =>
    dsimp only [rowOf] at hword
    obtain ⟨-, ⟨⟩⟩ := Option.ite_none_right_eq_some.mp h
    exact FaultRecord.legal_memoryBounds (.inr (.inr (by rw [hword]; decide)))
  | skp | sknp =>
    dsimp only [rowOf] at hword
    obtain ⟨hx, ⟨⟩⟩ := Option.ite_none_right_eq_some.mp h
    exact FaultRecord.legal_keyIndexBounds hx (by rw [hword]; decide)
  | _ => cases h

/-! ### A step keeps the invariant -/

theorem State.Inv.raise (hs : s.Inv) (hw : s.wait = false) {p : Addr} {w : Word}
    (hl : FaultRecord.legal { code := f.code, addr := p, word := w, info := f.info }) : (s.raise p w f).Inv :=
  ⟨hs.mem, hs.params, hs.fb, hl, fun _ => hw⟩

theorem State.Inv.advancePc (hs : s.Inv) : s.advancePc.Inv := ⟨hs.mem, hs.params, hs.fb, hs.fault, hs.condition⟩

theorem State.Inv.of_keeps (hs : s.Inv) (hf : s.fault.code = 0) (hk : s.Keeps t) : t.Inv where
  mem := hk.mem hs.mem
  params := hk.params ▸ hs.params
  fb := hk.params ▸ hk.fb hs.fb
  fault := hk.fault ▸ hs.fault
  condition := fun h => absurd hf (hk.fault ▸ h)

/-- Settles O13: every way a step can go either does nothing, writes a legal fault record on a CORE that is not waiting, or
completes an instruction, which keeps the record and the sizes. -/
theorem stepKeepsTheInvariant : Obligations.StepKeepsTheInvariant := by
  intro s t hs hstep
  obtain ⟨-, rfl⟩ | ⟨-, hw, hp, rfl⟩ | ⟨-, hw, -, hbad, rfl⟩ | ⟨hf, hw, -, i, -, hexec⟩ := step_cases hstep
  · exact hs
  · exact hs.raise hw (FaultRecord.legal_memoryBounds (.inl ⟨rfl, hp⟩))
  · exact hs.advancePc.raise hw (.inr (.inl ⟨rfl, (decodeWord_error_iff _).mp hbad, rfl⟩))
  · obtain ⟨f, hfault, hf'⟩ | ⟨-, u, hu, hkeeps⟩ := exec_cases i s.advancePc
    · cases hf'.symm.trans hexec
      exact hs.advancePc.raise hw (faultOf_legal hfault _)
    · cases hu.symm.trans hexec
      exact hs.advancePc.of_keeps (State.not_faulted_iff.mp hf) hkeeps

/-! ### The other operations keep it -/

theorem create_next {p : Params} {draws : Nat} {image : List Byte} (h : Machine.create p draws image = .next t) :
    image.length ≤ 3584 ∧ t = State.created p draws image := by
  obtain ⟨himage, ⟨⟩⟩ | ⟨-, ⟨⟩⟩ := ite_eq_iff.mp h
  exact ⟨imageWellFormed_iff.mp himage, rfl⟩

/-- Settles O16: font and image lie below 4096, so writing them keeps memory canonical. -/
theorem createMeetsTheInvariant : Obligations.CreateMeetsTheInvariant := by
  intro p draws image t hp hcreate
  obtain ⟨-, -, hfont⟩ := paramsWellFormed_iff.mp hp
  obtain ⟨hlen, rfl⟩ := create_next hcreate
  have hmem : ((Memory.writeList [] 0 p.font).writeList loadAddress image).wf = true :=
    Memory.wf_writeList (Memory.wf_writeList Memory.wf_nil (by simp only [memSize]; omega))
      (by simp only [memSize, loadAddress]; omega)
  exact ⟨hmem, hp, blankFb_length p, .inl rfl, fun h => absurd rfl h⟩

theorem run_keeps_inv (n : Nat) (hs : s.Inv) (h : run n s = .next t) : t.Inv := by
  induction n generalizing s with
  | zero => cases h; exact hs
  | succ n ih =>
    obtain ⟨u, hu⟩ := everyStepHasANextState s
    rw [run_succ hu] at h
    exact ih (stepKeepsTheInvariant s u hs hu) h

theorem State.Inv.tickTimers (hs : s.Inv) : s.tickTimers.Inv := by
  unfold State.tickTimers
  split
  · exact hs
  · exact ⟨hs.mem, hs.params, hs.fb, hs.fault, hs.condition⟩

theorem State.Inv.updateInput (hs : s.Inv) (bitmap : BitVec 16) : (s.updateInput bitmap).Inv := by
  unfold State.updateInput
  split
  · exact hs
  · split
    · exact ⟨hs.mem, hs.params, hs.fb, hs.fault, fun _ => rfl⟩
    · exact ⟨hs.mem, hs.params, hs.fb, hs.fault, hs.condition⟩

/-- Settles O15: an induction over the steps of `run`, and for the rest one lemma per operation. -/
theorem hostOperationsKeepTheInvariant : Obligations.HostOperationsKeepTheInvariant := by
  intro s t op hs h
  cases op with
  | create image => exact createMeetsTheInvariant s.params s.draws image t hs.params h
  | step => exact stepKeepsTheInvariant s t hs h
  | run n => exact run_keeps_inv n hs h
  | tickTimers => cases h; exact hs.tickTimers
  | updateInput bitmap => cases h; exact hs.updateInput bitmap
  | readFramebuffer => cases h; exact hs

/-- Settles O14: memory lists no cell, and the record is that of a running CORE. -/
theorem resetMeetsTheInvariant : Obligations.ResetMeetsTheInvariant :=
  ⟨State.reset_mem_wf, by decide, blankFb_length defaultParams, .inl rfl, fun h => absurd rfl h⟩

end Sys2Proof.Machine
end

section
/-! The call stack and the keys (spec/41_control_flow.md R150, R152; spec/45_keypad_timers.md R240, R241, R243): the
instructions with an execution check that write `PC` and the stack alone. -/

namespace Sys2Proof.Machine

variable {s : State} {i : Instr} {f : Fault}

/-- A fault of the cause table, as the statements say it. -/
theorem exec_onlyFaulted (h : faultOf i s = some f) : ∃ t, exec i s = .next t ∧ onlyFaulted f s t :=
  ⟨_, exec_of_fault h, onlyFaulted_raise _ _ _⟩

theorem State.top_eq {k : Fin 16} (h : s.sp.val = k.val + 1) : s.top = s.stack[k.val] := by
  simp only [State.top, h, Nat.add_sub_cancel]

theorem exec_ret_of_succ {k : Fin 16} (h : s.sp.val = k.val + 1) :
    exec .ret s = .next { s with sp := ⟨k.val, by omega⟩, pc := s.stack[k.val] } := by
  have hsp : (⟨s.sp.val - 1, by omega⟩ : Fin 17) = ⟨k.val, by omega⟩ := Fin.ext (by simp only [h, Nat.add_sub_cancel])
  rw [exec_ret_of_pos (by omega), State.top_eq h, hsp]
  rfl

/-- Settles O19: a pop of a stack that is not empty, and the fault of one that is. -/
theorem returnPopsTheStack : Obligations.ReturnPopsTheStack :=
  fun _ => ⟨fun _ h => exec_ret_of_succ h, fun h => exec_onlyFaulted (if_pos h)⟩

/-- Settles O21: a push on a stack that is not full, and the fault of one that is. -/
theorem callPushesTheReturnAddress : Obligations.CallPushesTheReturnAddress :=
  fun nnn _ => ⟨fun h => exec_call_of_lt nnn h, fun h => exec_onlyFaulted (if_pos h)⟩

/-- Settles O22: the return pops the slot the call wrote. -/
theorem returnUndoesCall : Obligations.ReturnUndoesCall := by
  intro nnn s t u h hcall hstack hsp
  cases (exec_call_of_lt nnn h).symm.trans hcall
  have hsucc : u.sp.val = (⟨s.sp.val, h⟩ : Fin 16).val + 1 := congrArg Fin.val hsp
  refine ⟨_, exec_ret_of_succ hsucc, ?_, rfl⟩
  simp [hstack]

/-- Settles O43: the skip is taken on the key, or on its complement. -/
theorem keySkipsTestTheNamedKey : Obligations.KeySkipsTestTheNamedKey := by
  refine fun x s => ⟨fun h => ⟨?_, ?_⟩, fun h => ⟨exec_onlyFaulted (if_pos h), exec_onlyFaulted (if_pos h)⟩⟩
  · rw [exec_skp (if_neg (by omega)), State.skipIf_eq]
    rfl
  · rw [exec_sknp (if_neg (by omega)), State.skipIf_eq]
    cases s.keys.getLsbD (s.reg x).toNat <;> rfl

end Sys2Proof.Machine
end

section
/-! The arithmetic, logic and shift instructions and the random byte (spec/42_alu.md R174 to R183). Each completes with `setReg`
or `setFlagThenReg`, whose frames are known; the byte written and the flag are left to say. -/

namespace Sys2Proof.Machine

/-- Settles O27: each is one `setReg x` of the bitwise result. -/
theorem bitwiseLogicWithoutFlag : Obligations.BitwiseLogicWithoutFlag := by
  intro x y s
  have key (b : Byte) : writesOnlyReg s (s.setReg x b) x ((s.setReg x b).reg x) := by
    rw [State.setReg_reg_self]
    exact writesOnlyReg_setReg x b
  refine ⟨⟨_, rfl, key _, fun k _ => ?_⟩, ⟨_, rfl, key _, fun k _ => ?_⟩, ⟨_, rfl, key _, fun k _ => ?_⟩⟩
  · rw [State.setReg_reg_self, BitVec.getLsbD_or]
  · rw [State.setReg_reg_self, BitVec.getLsbD_and]
  · rw [State.setReg_reg_self, BitVec.getLsbD_xor]

/-- Settles O28: the 8-bit sum is the sum of the numbers reduced modulo 256. -/
theorem addRegistersSetsTheCarry : Obligations.AddRegistersSetsTheCarry := by
  intro x y s
  rw [← BitVec.add_def]
  exact ⟨_, rfl, writesRegAndFlag_setFlagThenReg x _ _⟩

theorem sub_eq_ofNat (a b : Byte) : a - b = BitVec.ofNat 8 (a.toNat + 256 - b.toNat) := by
  apply BitVec.eq_of_toNat_eq
  have := b.isLt
  rw [BitVec.toNat_sub, BitVec.toNat_ofNat]
  congr 1
  omega

/-- Settles O29: no borrow is the comparison of the two numbers. -/
theorem subtractionsSetNoBorrow : Obligations.SubtractionsSetNoBorrow := by
  intro x y s
  rw [← sub_eq_ofNat, ← sub_eq_ofNat]
  exact ⟨⟨_, rfl, writesRegAndFlag_setFlagThenReg x _ _⟩, ⟨_, rfl, writesRegAndFlag_setFlagThenReg x _ _⟩⟩

theorem ushiftRight_one_eq_ofNat (a : Byte) : a >>> 1 = BitVec.ofNat 8 (a.toNat / 2) := by
  have := a.isLt
  apply BitVec.eq_of_toNat_eq
  rw [BitVec.toNat_ushiftRight, Nat.shiftRight_one, BitVec.toNat_ofNat, Nat.mod_eq_of_lt (by omega)]

theorem shiftLeft_one_eq_ofNat (a : Byte) : a <<< 1 = BitVec.ofNat 8 (a.toNat * 2) := by
  apply BitVec.eq_of_toNat_eq
  rw [BitVec.toNat_shiftLeft, Nat.shiftLeft_eq, BitVec.toNat_ofNat]

/-- Settles O30: a shift by one halves or doubles the number, and the flag is the bit at the end it leaves by. -/
theorem shiftsMoveOneBitIntoTheFlag : Obligations.ShiftsMoveOneBitIntoTheFlag := by
  intro x y s
  rw [← ushiftRight_one_eq_ofNat, ← shiftLeft_one_eq_ofNat]
  exact ⟨⟨_, rfl, writesRegAndFlag_setFlagThenReg x _ _⟩, ⟨_, rfl, writesRegAndFlag_setFlagThenReg x _ _⟩⟩

theorem sameBut_setReg_countDraw {s : State} (x : RegIdx) (b : Byte) :
    sameBut [.draws] s (s.setReg x b).countDraw := by constructor <;> simp

/-- Settles O31: whatever byte is drawn, the mask bounds it and clears its bits. -/
theorem randomByteIsMasked : Obligations.RandomByteIsMasked := by
  intro x nn s
  have hreg : ((s.setReg x (s.randomByte &&& nn)).countDraw).reg x = s.randomByte &&& nn := by simp
  refine ⟨rfl, _, rfl, hreg, ?_, fun k _ hk => ?_, sameRegsBut_setReg x _, rfl, rfl, sameBut_setReg_countDraw x _⟩
  · rw [hreg, BitVec.toNat_and]
    exact Nat.and_le_right
  · rw [hreg, BitVec.getLsbD_and, hk, Bool.and_false]

/-- The result is written after the flag (R23), so register 15 holds the result. -/
theorem reg_fifteen_of_exec {i : Instr} {s t : State} {c : Bool} {b : Byte}
    (hi : exec i s = .next (s.setFlagThenReg 15 c b)) (h : exec i s = .next t) : t.reg 15 = b := by
  cases hi.symm.trans h
  rw [State.setFlagThenReg_reg, if_pos rfl]

/-- Settles O32: the result kept in register 15 is that of the old operands. -/
theorem flagIsLostInRegisterFifteen : Obligations.FlagIsLostInRegisterFifteen := by
  intro y s t
  refine ⟨reg_fifteen_of_exec rfl, reg_fifteen_of_exec rfl, reg_fifteen_of_exec rfl, fun h => ?_, fun h => ?_, fun h => ?_,
    fun h => ?_, fun h => ?_⟩
  · rw [reg_fifteen_of_exec rfl h, BitVec.toNat_ushiftRight, Nat.shiftRight_one]
  · rw [reg_fifteen_of_exec rfl h, BitVec.toNat_shiftLeft, Nat.shiftLeft_eq]
  · rw [reg_fifteen_of_exec rfl h, BitVec.toNat_add, Nat.two_mul]
  · exact (reg_fifteen_of_exec rfl h).trans (BitVec.sub_self _)
  · exact (reg_fifteen_of_exec rfl h).trans (BitVec.sub_self _)

end Sys2Proof.Machine
end

section
/-! The memory instructions (spec/43_index_memory.md R203 to R205): what `Fx33` and `Fx55` leave in memory and `Fx65` in the
registers. -/

namespace Sys2Proof.Machine

variable {s : State}

/-- Settles O34: memory after the store is the spec's table of stored bytes, and each digit is below 256. -/
theorem decimalDigitsAreStored : Obligations.DecimalDigitsAreStored := by
  refine fun x s => ⟨fun h => ?_, fun h => exec_onlyFaulted (if_pos h)⟩
  have hlt := (s.reg x).isLt
  have hread := s.read_digits_stored x
  refine ⟨_, exec_ldB (if_neg (by omega)), ?_, ?_, ?_, fun a ha => ?_, fun _ _ => rfl, rfl, sameBut_setMem _⟩
  all_goals rw [State.setMem_mem, hread, byteAfterStore]
  · rw [if_pos rfl, BitVec.toNat_ofNat, Nat.mod_eq_of_lt (by omega)]
  · rw [if_neg (by omega), if_pos rfl, BitVec.toNat_ofNat, Nat.mod_eq_of_lt (by omega)]
  · rw [if_neg (by omega), if_neg (by omega), if_pos rfl, BitVec.toNat_ofNat, Nat.mod_eq_of_lt (by omega)]
  · rw [if_neg (by omega), if_neg (by omega), if_neg (by omega)]

/-- What `Fx65` leaves in each register (R205). -/
theorem State.reg_loaded (x r : RegIdx) :
    (s.setRegsFrom 0 (s.bytesAtI (rangeLength x))).reg r =
      if r.toNat ≤ x.toNat then s.mem.read (s.i.toNat + r.toNat) else s.reg r := by
  have hx := x.isLt
  rw [State.setRegsFrom_reg _ _ (by simp only [State.bytesAtI_length, rangeLength]; omega)]
  simp only [State.bytesAtI_length, State.bytesAtI_getElem, rangeLength, Nat.zero_le, true_and, Nat.zero_add, Nat.sub_zero,
    Nat.lt_succ_iff, dite_eq_ite]

/-- Settles O35: memory after the store is the spec's table of stored bytes. -/
theorem registersAreStored : Obligations.RegistersAreStored := by
  refine fun x s => ⟨fun h => ?_, fun h => exec_onlyFaulted (if_pos h)⟩
  have hread := s.read_registers_stored x
  refine ⟨_, exec_ldMemVx (if_neg (by omega)), fun r hr => ?_, fun a ha => ?_, fun _ _ => rfl, rfl, sameBut_setMem _⟩
  · rw [State.setMem_mem, hread, byteAfterStore, if_pos (by omega), Nat.add_sub_cancel_left, BitVec.ofNat_toNat,
      BitVec.setWidth_eq]
  · rw [State.setMem_mem, hread, byteAfterStore, if_neg ha]

/-- Settles O36: the load writes registers alone, each with the byte at its distance from `I`. -/
theorem registersAreLoaded : Obligations.RegistersAreLoaded :=
  fun x _ => ⟨fun h => ⟨_, exec_ldVxMem (if_neg (by omega)), State.reg_loaded x, setRegsFrom_pc _ _, sameBut_setRegsFrom _ _⟩,
    fun h => exec_onlyFaulted (if_pos h)⟩

/-- Settles O37: O35 says what the store left at each address and O36 that the load reads it back. -/
theorem loadUndoesStore : Obligations.LoadUndoesStore := by
  intro x s t u h hstore hmem hi
  obtain ⟨t', ht', hstored, -⟩ := (registersAreStored x s).1 h
  cases ht'.symm.trans hstore
  obtain ⟨w, hw, hloaded, -⟩ := (registersAreLoaded x u).1 (hi ▸ h)
  refine ⟨w, hw, fun r hr => ?_⟩
  rw [hloaded, if_pos hr, hmem, hi, hstored r hr]

end Sys2Proof.Machine
end

section
/-! The draw (spec/44_display.md R221, R222). The canvas after a draw is the screen with the sprite's pixels toggled, all of them
distinct; those pixels are the ones the sprite covers. -/

namespace Sys2Proof.Machine

variable {s t : State} {vx vy : Byte} {x y : RegIdx} {n : Nibble} {px py : Nat}

/-- The linear indices the `n`-row sprite at `I` toggles (R221). -/
def State.hits (s : State) (vx vy : Byte) (n : Nibble) : List Nat := spriteHits s.params vx vy 0 (s.bytesAtI n.toNat)

theorem State.drawnCanvas_eq (s : State) (vx vy : Byte) (n : Nibble) :
    s.drawnCanvas vx vy n = (s.hits vx vy n).foldl Canvas.toggle { fb := s.fb, collision := false } :=
  Canvas.drawRows_eq s.params vx vy (s.bytesAtI n.toNat) 0 _

theorem State.Inv.size_pos (hs : s.Inv) : 0 < s.params.fbW ∧ 0 < s.params.fbH := by
  obtain ⟨hw, hh, -⟩ := paramsWellFormed_iff.mp hs.params
  exact ⟨by omega, by omega⟩

theorem State.Inv.hits_nodup (hs : s.Inv) : (s.hits vx vy n).Nodup := by
  have hn := n.isLt
  exact spriteHits_nodup hs.params (by rw [State.bytesAtI_length]; omega)

theorem State.Inv.hits_lt (hs : s.Inv) : ∀ k ∈ s.hits vx vy n, k < s.fb.length := by
  intro k hk
  obtain ⟨row, _, col, _, _, rfl⟩ := mem_spriteHits.mp hk
  obtain ⟨hw, hh⟩ := hs.size_pos
  rw [hs.fb]
  exact spriteIndex_lt hw hh vx vy _ col

theorem State.Inv.drawnCanvas_getD (hs : s.Inv) (j : Nat) :
    (s.drawnCanvas vx vy n).fb.getD j false = (s.fb.getD j false ^^ decide (j ∈ s.hits vx vy n)) := by
  rw [s.drawnCanvas_eq]
  exact (Canvas.foldl_toggle _ _ hs.hits_nodup hs.hits_lt).1 j

theorem State.Inv.drawnCanvas_collision (hs : s.Inv) :
    (s.drawnCanvas vx vy n).collision = (s.hits vx vy n).any fun k => s.fb.getD k false := by
  rw [s.drawnCanvas_eq, (Canvas.foldl_toggle _ _ hs.hits_nodup hs.hits_lt).2, Bool.false_or]

/-- On the screen, the pixels toggled are those the sprite covers. -/
theorem State.Inv.mem_hits_iff (hs : s.Inv) (hx : px < s.params.fbW) :
    pixelIndex s.params px py ∈ s.hits vx vy n ↔ spriteCovers s vx vy n px py := by
  have hw := hs.size_pos.1
  simp only [State.hits, mem_spriteHits, State.bytesAtI_length, State.bytesAtI_getElem, Nat.zero_add, spriteBit]
  constructor
  · rintro ⟨row, hrow, col, hcol, hbit, heq⟩
    obtain ⟨ex, ey⟩ := pixelIndex_inj (Nat.mod_lt _ hw) hx heq
    exact ⟨row, hrow, col, hcol, ex, ey, hbit⟩
  · rintro ⟨row, hrow, col, hcol, rfl, rfl, hbit⟩
    exact ⟨row, hrow, col, hcol, hbit, rfl⟩

/-- A collision is a lit pixel that the sprite covers (R222 (d)). -/
theorem State.Inv.collision_iff (hs : s.Inv) : (s.drawnCanvas vx vy n).collision = true ↔ spriteCollides s vx vy n := by
  obtain ⟨hw, hh⟩ := hs.size_pos
  rw [hs.drawnCanvas_collision, List.any_eq_true]
  constructor
  · rintro ⟨k, hk, hlit⟩
    obtain ⟨row, -, col, -, -, rfl⟩ := mem_spriteHits.mp hk
    have hx := Nat.mod_lt (vx.toNat + col) hw
    exact ⟨_, hx, _, Nat.mod_lt (vy.toNat + (0 + row)) hh, hlit, (hs.mem_hits_iff hx).mp hk⟩
  · rintro ⟨px, hx, py, -, hlit, hcovers⟩
    exact ⟨_, (hs.mem_hits_iff hx).mpr hcovers, hlit⟩

/-! ### The state after a draw -/

theorem State.drawn_reg_flag : (s.drawn x y n).reg 15 = flagByte (s.drawnCanvas (s.reg x) (s.reg y) n).collision :=
  State.setReg_reg_self _ _ _

theorem State.drawn_sameRegsBut : sameRegsBut [15] s (s.drawn x y n) := sameRegsBut_setReg _ _

theorem State.drawn_sameBut : sameBut [.fb] s (s.drawn x y n) := by constructor <;> simp [State.drawn]

theorem State.Inv.drawn (hs : s.Inv) : (s.drawn x y n).Inv :=
  ⟨hs.mem, hs.params, (s.keeps_drawn x y n).fb hs.fb, hs.fault, hs.condition⟩

theorem State.Inv.drawn_getD (hs : s.Inv) (j : Nat) :
    (s.drawn x y n).fb.getD j false = (s.fb.getD j false ^^ decide (j ∈ s.hits (s.reg x) (s.reg y) n)) :=
  hs.drawnCanvas_getD j

theorem State.Inv.drawn_pixel (hs : s.Inv) (hx : px < s.params.fbW) : (s.drawn x y n).pixel px py = true ↔
    ¬(s.pixel px py = true ↔ spriteCovers s (s.reg x) (s.reg y) n px py) := by
  have hpixel : (s.drawn x y n).pixel px py =
      (s.pixel px py ^^ decide (pixelIndex s.params px py ∈ s.hits (s.reg x) (s.reg y) n)) := hs.drawn_getD _
  rw [hpixel, ← hs.mem_hits_iff hx]
  cases s.pixel px py <;> simp

/-- Settles O40: toggling distinct pixels is the exclusive or with the set of them. -/
theorem drawIsXorWithTheWrappedSprite : Obligations.DrawIsXorWithTheWrappedSprite := by
  refine fun x y n s hs => ⟨fun h => ?_, fun hn hi => exec_onlyFaulted (if_pos ⟨hn, hi⟩)⟩
  refine ⟨s.drawn x y n, exec_drw (if_neg (by omega)), fun px hx py _ => hs.drawn_pixel hx, fun hc => ?_, fun hc => ?_,
    State.drawn_sameRegsBut, rfl, State.drawn_sameBut⟩
  · rw [State.drawn_reg_flag, hs.collision_iff.mpr hc]
    rfl
  · rw [State.drawn_reg_flag, Bool.eq_false_iff.mpr (mt hs.collision_iff.mp hc)]
    rfl

/-- Settles O41: without rows a draw is the one update of the flag register. -/
theorem drawOfNoRowsClearsTheFlag : Obligations.DrawOfNoRowsClearsTheFlag :=
  fun _ _ s => ⟨s.setReg flagReg 0, exec_drw (by simp [faultOf]), rfl, s.setReg_reg_self flagReg 0,
    sameRegsBut_setReg flagReg 0, rfl, sameBut_setReg flagReg 0⟩

/-- Settles O42: the first draw moves neither the place nor the sprite, and pixels toggled twice are as they were. -/
theorem drawingTwiceRestoresTheScreen : Obligations.DrawingTwiceRestoresTheScreen := by
  intro x y n s t u hs hx hy hfits ht hu
  cases (exec_drw (if_neg (by omega))).symm.trans ht
  cases (exec_drw (if_neg (by show ¬(_ ∧ 4096 ≤ s.i.toNat + _ - 1); omega))).symm.trans hu
  have hhits : (s.drawn x y n).hits ((s.drawn x y n).reg x) ((s.drawn x y n).reg y) n = s.hits (s.reg x) (s.reg y) n := by
    rw [State.drawn_sameRegsBut x (by simpa using hx), State.drawn_sameRegsBut y (by simpa using hy)]
    rfl
  have hpixel (j : Nat) : ((s.drawn x y n).drawn x y n).fb.getD j false = s.fb.getD j false := by
    rw [hs.drawn.drawn_getD, hhits, hs.drawn_getD, Bool.xor_assoc, Bool.xor_self, Bool.xor_false]
  have hlen : ((s.drawn x y n).drawn x y n).fb.length = s.fb.length := by
    rw [hs.drawn.drawn.fb, hs.fb]
    rfl
  exact List.ext_getElem hlen fun j h h' => by
    rw [← List.getD_eq_getElem _ false h, ← List.getD_eq_getElem _ false h', hpixel]

/-- Settles O59: a draw either wrote the fault record and nothing else, or left `State.drawn`. -/
theorem displayFrame : Obligations.DisplayFrame := by
  refine fun x y n s t => ⟨fun h => ?_, fun h => ?_⟩
  · cases h
    exact ⟨fun _ _ => rfl, sameBut_setFb _⟩
  · obtain ⟨p, w, f, rfl⟩ | hn := exec_next_cases h
    · exact ⟨fun _ _ => rfl, (sameBut_raise p w f).mono (by simp), fun _ => ⟨rfl, fun _ _ => rfl⟩⟩
    · cases (exec_drw hn).symm.trans h
      exact ⟨State.drawn_sameRegsBut, State.drawn_sameBut.mono (by simp), fun hne => absurd rfl hne⟩

end Sys2Proof.Machine
end

section
/-! The other operations of the host (spec/40_step_cycle_and_host_ops.md R126 to R132) and the state after `create`
(spec/70_reset_and_hazards.md R300 to R303). -/

namespace Sys2Proof.Machine

variable {s t : State} {i : Instr} {bitmap : BitVec 16}

/-! ### A FAULTED CORE (R270) -/

theorem apply_of_faulted (h : s.faulted = true) {op : HostOp} (hop : ∀ image, op ≠ .create image) :
    s.apply op = .next s := by
  cases op with
  | create image => exact absurd rfl (hop image)
  | step => exact step_of_faulted h
  | run n => exact run_of_fixed (step_of_faulted h) n
  | tickTimers => exact congrArg Host.Outcome.next (if_pos h)
  | updateInput bitmap => exact congrArg Host.Outcome.next (if_pos h)
  | readFramebuffer => rfl

theorem applyAll_cons {op : HostOp} (h : s.apply op = .next t) (ops : List HostOp) :
    s.applyAll (op :: ops) = t.applyAll ops := by
  rw [State.applyAll, h]

theorem applyAll_of_faulted (h : s.faulted = true) {ops : List HostOp} (hops : ∀ image, .create image ∉ ops) :
    s.applyAll ops = .next s := by
  induction ops with
  | nil => rfl
  | cons op ops ih =>
    have hop : s.apply op = .next s := apply_of_faulted h fun image e => hops image (e ▸ List.mem_cons_self)
    rw [applyAll_cons hop, ih fun image hmem => hops image (List.mem_cons_of_mem op hmem)]

/-- Settles O12: each operation leaves a FAULTED CORE alone, and a created state has the record of a running one. -/
theorem faultedIsTerminal : Obligations.FaultedIsTerminal := by
  refine ⟨fun s ops hf hops => applyAll_of_faulted (State.faulted_iff.mpr hf) hops, fun s t image h => ?_⟩
  obtain ⟨-, rfl⟩ := create_next h
  rfl

/-! ### update_input (R130) -/

theorem State.updateInput_of_no_wait (hf : s.fault.code = 0) (hw : s.wait = false) :
    s.updateInput bitmap = s.setKeys bitmap := by
  simp [State.updateInput, State.not_faulted_iff.mpr hf, hw]

/-- Settles O46: a bitmap with a newly pressed key has a lowest one. -/
theorem updateInputDeliversTheLowestNewKey : Obligations.UpdateInputDeliversTheLowestNewKey := by
  refine fun s bitmap => ⟨fun hf => if_pos (State.faulted_iff.mpr hf), fun hf h => ?_, fun hf hw hnew => ?_⟩
  · obtain hw | hnone := h
    · exact State.updateInput_of_no_wait hf hw
    · exact State.updateInput_of_no_new_key hf hnone
  · obtain ⟨k, hk⟩ := Option.ne_none_iff_exists'.mp (mt lowestKey_none hnew)
    obtain ⟨hlt, hset, hlow⟩ := lowestKey_some hk
    refine ⟨k, hlt, hset, hlow, ?_⟩
    rw [State.updateInput_of_lowest_new_key hf hw hk]
    refine ⟨s.setReg_reg_self s.waitReg _, sameRegsBut_setReg s.waitReg _, rfl, rfl, rfl, ?_⟩
    constructor <;> simp [State.deliverKey]

/-! ### tick_timers (R128) -/

/-- Settles O47: a tick leaves the CORE not FAULTED, and the floored subtraction of 1 repeated is that of `n`. -/
theorem ticksCountDownToZero : Obligations.TicksCountDownToZero := by
  intro n s hf
  induction n generalizing s with
  | zero => simp [State.applyAll]
  | succ n ih =>
    have hdt := s.dt.isLt
    have hst := s.st.isLt
    have htick : s.apply .tickTimers = .next s.tickTimers := rfl
    have hf' : s.tickTimers.fault.code = 0 := by
      rw [State.tickTimers_eq_ofNat hf]
      exact hf
    rw [List.replicate_succ, applyAll_cons htick, ih _ hf', State.tickTimers_eq_ofNat hf]
    simp only [BitVec.toNat_ofNat]
    rw [Nat.mod_eq_of_lt (by omega), Nat.mod_eq_of_lt (by omega), Nat.sub_sub, Nat.sub_sub, Nat.add_comm 1 n]

/-! ### run (R126) -/

theorem exec_keeps_keys_params (h : exec i s = .next t) : t.keys = s.keys ∧ t.params = s.params := by
  obtain ⟨f, -, hf⟩ | ⟨-, u, hu, hkeeps⟩ := exec_cases i s
  · cases hf.symm.trans h
    exact ⟨rfl, rfl⟩
  · cases hu.symm.trans h
    exact ⟨hkeeps.keys, hkeeps.params⟩

theorem step_keeps_keys_params (h : step s = .next t) : t.keys = s.keys ∧ t.params = s.params := by
  obtain ⟨-, rfl⟩ | ⟨-, -, -, rfl⟩ | ⟨-, -, -, -, rfl⟩ | ⟨-, -, -, i, -, hexec⟩ := step_cases h
  · exact ⟨rfl, rfl⟩
  · exact ⟨rfl, rfl⟩
  · exact ⟨rfl, rfl⟩
  · exact exec_keeps_keys_params (s := s.advancePc) hexec

theorem run_keeps_keys_params (n : Nat) (s : State) :
    ∃ t, Machine.run n s = .next t ∧ t.keys = s.keys ∧ t.params = s.params := by
  induction n generalizing s with
  | zero => exact ⟨s, rfl, rfl, rfl⟩
  | succ n ih =>
    obtain ⟨u, hu⟩ := everyStepHasANextState s
    obtain ⟨t, ht, hkeys, hparams⟩ := ih u
    obtain ⟨hkeys', hparams'⟩ := step_keeps_keys_params hu
    exact ⟨t, (run_succ hu).trans ht, hkeys.trans hkeys', hparams.trans hparams'⟩

/-- Settles O48: an induction over the steps; a waiting CORE's step is no change. -/
theorem runKeepsKeysAndWait : Obligations.RunKeepsKeysAndWait := by
  intro n s
  obtain ⟨t, ht, hkeys, hparams⟩ := run_keeps_keys_params n s
  refine ⟨t, ht, hkeys, hparams, fun hw => ?_⟩
  cases ht.symm.trans (run_of_fixed (step_of_waiting hw) n)
  rfl

/-! ### create (R301, R302) -/

theorem create_of_oversized (p : Params) (draws : Nat) {image : List Byte} (h : 3584 < image.length) :
    Machine.create p draws image = .refused .programTooLarge :=
  if_neg (by rw [imageWellFormed_iff]; omega)

theorem create_of_fits (p : Params) (draws : Nat) {image : List Byte} (h : image.length ≤ 3584) :
    Machine.create p draws image = .next (State.created p draws image) :=
  if_pos (imageWellFormed_iff.mpr h)

/-- Settles O50: the sequence stops at the refusal. -/
theorem oversizedImageIsRefused : Obligations.OversizedImageIsRefused := by
  refine fun image h => ⟨fun p draws => create_of_oversized p draws h, fun s ops t hall => ?_⟩
  have hrefused : s.apply (.create image) = .refused .programTooLarge := create_of_oversized s.params s.draws h
  rw [State.applyAll, hrefused] at hall
  cases hall

theorem resetByte_of_le {a : Nat} (h : 80 ≤ a) : resetByte a = 0 := by
  rw [resetByte, List.getD_eq_default _ _ (by simpa [defaultFont] using h)]

theorem State.reg_of_zeros (h : s.v = Vector.replicate 16 0) (r : RegIdx) : s.reg r = 0 := by
  simp [State.reg, h]

section Created

variable {p : Params} {draws : Nat} {image : List Byte} {a : Nat}

theorem created_read_font (hfont : p.font.length = 80) (ha : a < 80) :
    (State.created p draws image).mem.read a = p.font.getD a 0 := by
  have h : a < p.font.length := by omega
  rw [State.created_mem, Memory.read_writeList, dif_neg (by simp only [loadAddress]; omega), Memory.read_writeList,
    dif_pos (by omega), List.getD_eq_getElem _ _ h]
  rfl

theorem created_read_image {k : Nat} (hk : k < image.length) :
    (State.created p draws image).mem.read (512 + k) = image.getD k 0 := by
  rw [State.created_mem, Memory.read_writeList, dif_pos (by simp only [loadAddress]; omega), List.getD_eq_getElem _ _ hk]
  simp [loadAddress]

theorem created_read_elsewhere (hfont : p.font.length = 80) (ha : 80 ≤ a) (himage : ¬(512 ≤ a ∧ a < 512 + image.length)) :
    (State.created p draws image).mem.read a = 0 := by
  rw [State.created_mem, Memory.read_writeList, dif_neg (by simpa only [loadAddress] using himage), Memory.read_writeList,
    dif_neg (by omega)]
  exact resetByte_of_le ha

/-- Without an image the word at the load address is 0, which is no instruction. -/
theorem step_created_empty (hfont : p.font.length = 80) :
    step (State.created p draws []) = .next { State.created p draws [] with
      pc := 0x202, fault := { code := 1, addr := 0x200, word := 0, info := 0 } } := by
  have hpc : (State.created p draws []).pc = 512 := rfl
  have hread (k : Nat) (hk : 80 ≤ k) : (State.created p draws []).mem.read k = 0 :=
    created_read_elsewhere hfont hk (by simp only [List.length_nil]; omega)
  have hword : (State.created p draws []).wordAtPc = 0 := by
    rw [State.wordAtPc, hpc, hread _ (by decide), hread _ (by decide)]
    rfl
  rw [step_of_invalid ⟨rfl, rfl⟩ (hpc ▸ by decide) (hword ▸ by decide), hword]
  rfl

end Created

/-- Settles O49: every register is as `State.created` lists it, and the three ranges of memory have their lemmas above. -/
theorem createLoadsFontAndImage : Obligations.CreateLoadsFontAndImage := by
  intro p draws image hp
  obtain ⟨-, -, hfont⟩ := paramsWellFormed_iff.mp hp
  refine ⟨create_of_oversized p draws, fun h => ⟨_, create_of_fits p draws h, State.reg_of_zeros rfl, rfl, fun k => ?_, rfl,
    rfl, rfl, fun px _ py _ => ?_, rfl, rfl, rfl, rfl, rfl, fun a ha => created_read_font hfont ha,
    fun k hk => created_read_image hk, fun a _ ha himage => created_read_elsewhere hfont ha himage, fun hempty => ?_⟩⟩
  · exact Vector.getElem_replicate _
  · rw [State.pixel_eq]
    exact blankFb_getD p _
  · cases List.eq_nil_of_length_eq_zero hempty
    exact step_created_empty hfont

/-- Settles O51: unlisted memory reads as the default font and 0 from address 80 on. -/
theorem resetHoldsTheTabledValues : Obligations.ResetHoldsTheTabledValues := by
  refine ⟨State.reg_of_zeros rfl, rfl, rfl, fun k => Vector.getElem_replicate _, rfl, rfl, rfl, rfl, rfl, rfl, rfl,
    ⟨rfl, rfl⟩, fun px py => ?_, fun _ _ => rfl, fun a ha => resetByte_of_le ha⟩
  rw [State.pixel_eq, State.reset_fb, blankFb_getD]

/-- Settles O52: writing the default font lists no cell. -/
theorem resetIsCreateOfTheEmptyImage : Obligations.ResetIsCreateOfTheEmptyImage := by
  have h : State.created defaultParams 0 [] = State.reset :=
    State.ext rfl rfl rfl (State.created_default_mem 0) rfl rfl rfl rfl rfl rfl rfl rfl rfl rfl rfl
  exact (create_of_fits defaultParams 0 (Nat.zero_le _)).trans (congrArg Host.Outcome.next h)

/-! ### The framebuffer read (R132) -/

/-- Settles O53: quotient and remainder by the width take a row-major index apart. -/
theorem framebufferReadIsRowMajor : Obligations.FramebufferReadIsRowMajor := by
  refine fun s => ⟨rfl, by simp [State.readFramebuffer], fun px hx py hy => ?_⟩
  have hw : 0 < s.params.fbW := by omega
  have hlt : py * s.params.fbW + px < s.params.fbW * s.params.fbH := by
    calc py * s.params.fbW + px < py * s.params.fbW + s.params.fbW := Nat.add_lt_add_left hx _
      _ = (py + 1) * s.params.fbW := (Nat.succ_mul _ _).symm
      _ ≤ s.params.fbH * s.params.fbW := Nat.mul_le_mul_right _ hy
      _ = s.params.fbW * s.params.fbH := Nat.mul_comm _ _
  have hmod : (py * s.params.fbW + px) % s.params.fbW = px := by
    rw [Nat.mul_add_mod_self_right, Nat.mod_eq_of_lt hx]
  have hdiv : (py * s.params.fbW + px) / s.params.fbW = py := by
    rw [Nat.mul_comm, Nat.mul_add_div hw, Nat.div_eq_of_lt hx, Nat.add_zero]
  rw [State.readFramebuffer, List.getElem?_map, List.getElem?_range hlt, Option.map_some, hmod, hdiv]

end Sys2Proof.Machine
end

section
/-! The frames (spec/10_state.md R39). A checked instruction either wrote the fault record and nothing else, or completed with
updates whose frames are known; the others always complete. -/

namespace Sys2Proof.Machine

variable {s t : State} {i : Instr}

theorem frame_setFlagThenReg (x : RegIdx) (c : Bool) (b : Byte) :
    sameRegsBut [x, 15] s (s.setFlagThenReg x c b) ∧ sameBut [] s (s.setFlagThenReg x c b) := by
  obtain ⟨-, -, hregs, -, hparts⟩ := writesRegAndFlag_setFlagThenReg (s := s) x c b
  exact ⟨hregs, hparts⟩

/-- Settles O54: one `setReg`, one `setFlagThenReg`, or a `setReg` and a draw. -/
theorem arithmeticFrame : Obligations.ArithmeticFrame := by
  refine fun x y nn s t => ⟨fun i hi h => ?_, fun i hi h => ?_, fun h => ?_⟩
  · fin_cases hi <;> cases h <;> exact ⟨sameRegsBut_setReg x _, sameBut_setReg x _⟩
  · fin_cases hi <;> cases h <;> exact frame_setFlagThenReg x _ _
  · cases h
    exact ⟨sameRegsBut_setReg x _, sameBut_setReg_countDraw x _⟩

theorem frame_setPc (a : Addr) : sameRegsBut [] s (s.setPc a) ∧ sameBut [] s (s.setPc a) :=
  ⟨fun _ _ => rfl, sameBut_setPc a⟩

theorem frame_skipIf (c : Bool) : sameRegsBut [] s (s.skipIf c) ∧ sameBut [] s (s.skipIf c) := by
  rw [State.skipIf_eq]
  exact frame_setPc _

theorem keySkip_frame (hi : i = .skp x ∨ i = .sknp x) (h : exec i s = .next t) :
    sameRegsBut [] s t ∧ sameBut [.fault] s t := by
  obtain ⟨p, w, f, rfl⟩ | hn := exec_next_cases h
  · exact ⟨fun _ _ => rfl, sameBut_raise p w f⟩
  · have hskip : ∃ c, exec i s = .next (s.skipIf c) := by
      obtain rfl | rfl := hi
      · exact ⟨_, exec_skp hn⟩
      · exact ⟨_, exec_sknp hn⟩
    obtain ⟨c, hc⟩ := hskip
    cases hc.symm.trans h
    obtain ⟨hregs, hparts⟩ := frame_skipIf (s := s) c
    exact ⟨hregs, hparts.mono (by simp)⟩

/-- Settles O55: the jumps and skips write `PC` alone; the other four wrote the fault record and nothing else, or completed. -/
theorem controlFlowFrame : Obligations.ControlFlowFrame := by
  refine fun x y nn nnn s t => ⟨fun i hi h => ?_, fun i hi h => keySkip_frame (by simpa using hi) h, fun h => ?_, fun h => ?_⟩
  · simp only [List.mem_cons, List.not_mem_nil, or_false] at hi
    obtain rfl | rfl | rfl | rfl | rfl | rfl := hi <;> cases h
    · exact frame_setPc _
    · exact frame_setPc _
    all_goals exact frame_skipIf _
  · obtain ⟨p, w, f, rfl⟩ | hn := exec_next_cases h
    · exact ⟨fun _ _ => rfl, (sameBut_raise p w f).mono (by simp)⟩
    · cases (exec_ret_of_pos (by simpa [faultOf] using hn)).symm.trans h
      exact ⟨fun _ _ => rfl, by constructor <;> simp⟩
  · obtain ⟨p, w, f, rfl⟩ | hn := exec_next_cases h
    · exact ⟨fun _ _ => rfl, (sameBut_raise p w f).mono (by simp), fun _ _ => rfl⟩
    · have hsp : s.sp.val ≠ 16 := by simpa [faultOf] using hn
      have hlt : s.sp.val < 16 := by omega
      cases (exec_call_of_lt nnn hlt).symm.trans h
      exact ⟨fun _ _ => rfl, by constructor <;> simp, fun k hk => Vector.getElem_set_ne hlt k.isLt (Ne.symm hk)⟩

/-- Settles O56: each is one update of the pieces named, `setI`, `setDt`, `setSt` or `startWait`. -/
theorem indexTimerWaitFrame : Obligations.IndexTimerWaitFrame := by
  refine fun x nnn s t => ⟨fun i hi h => ?_, fun h => ?_, fun h => ?_, fun h => ?_⟩
  · fin_cases hi <;> cases h <;> exact ⟨fun _ _ => rfl, by constructor <;> simp⟩
  all_goals cases h; exact ⟨fun _ _ => rfl, by constructor <;> simp⟩

/-- What a store may change (R203, R204): of memory, the bytes its table lists. -/
theorem storeFrame_of_exec {x : RegIdx} {b n : Nat} (hi : i = .ldB x ∨ i = .ldMemVx x) (h : exec i s = .next t)
    (hread : ∀ a, ¬(b ≤ a ∧ a < b + n) → byteAfterStore i s a = s.mem.read a) :
    (∀ a, ¬(b ≤ a ∧ a < b + n) → t.mem.read a = s.mem.read a) ∧ sameRegsBut [] s t ∧
      sameBut [.mem, .fault] s t ∧ (t.fault ≠ s.fault → ∀ a, t.mem.read a = s.mem.read a) := by
  obtain ⟨p, w, f, rfl⟩ | hn := exec_next_cases h
  · exact ⟨fun _ _ => rfl, fun _ _ => rfl, (sameBut_raise p w f).mono (by simp), fun _ _ => rfl⟩
  · obtain ⟨m, hm, hstored⟩ := exec_store hi hn
    cases hm.symm.trans h
    exact ⟨fun a ha => (hstored a).trans (hread a ha), fun _ _ => rfl, (sameBut_setMem m).mono (by simp),
      fun hne => absurd rfl hne⟩

/-- Settles O57: outside their ranges the tables of stored bytes list what was there. -/
theorem storeFrame : Obligations.StoreFrame := by
  refine fun x s t => ⟨fun h => storeFrame_of_exec (.inl rfl) h fun a ha => ?_,
    fun h => storeFrame_of_exec (.inr rfl) h fun a ha => ?_⟩
  · simp only [State.base] at ha
    rw [byteAfterStore, if_neg (by omega), if_neg (by omega), if_neg (by omega)]
  · simp only [State.base, rangeLength] at ha
    rw [byteAfterStore, if_neg (by omega)]

/-- Settles O58: the load wrote the fault record and nothing else, or the registers up to `x`. -/
theorem loadFrame : Obligations.LoadFrame := by
  intro x s t h
  obtain ⟨p, w, f, rfl⟩ | hn := exec_next_cases h
  · exact ⟨fun _ _ => rfl, sameBut_raise p w f, fun _ _ _ => rfl⟩
  · cases (exec_ldVxMem hn).symm.trans h
    refine ⟨fun r hr => ?_, (sameBut_setRegsFrom _ _).mono (by simp), fun hne => absurd ?_ hne⟩
    · rw [State.reg_loaded, if_neg (by omega)]
    · exact (s.keeps_setRegsFrom 0 _).fault

end Sys2Proof.Machine
end
